-- ==== Sys2Proof/Config.lean ====
section
/-!
DEFINITION. The configuration of a core: the parameters of spec/00_scope.md R7 (spec/10_state.md R40), fixed while it
runs, and the one free value of the model. The configuration in force is `Sys2Proof.config` (Machine/Build.lean), where
a repair can mend a value. The parameters the host supplies with a reset, `ICOUNT`, `ENTRY` and `GCOUNT`, are the fields
of `LoadImage` (WellFormed.lean), latched into the state (R34).
-/

namespace Sys2Proof

/-- The nineteen mnemonics, in the order of spec/30_encoding.md R73. -/
inductive Mnemonic where
  | iadd | isub | imul | ilt | ieq | br | brt | brf | iconst | load | store | gload | gstore | print | pop | halt
  | call | ret | init
  deriving DecidableEq, Repr

/-- Every mnemonic once. -/
def Mnemonic.all : List Mnemonic :=
  [.iadd, .isub, .imul, .ilt, .ieq, .br, .brt, .brf, .iconst, .load, .store, .gload, .gstore, .print, .pop, .halt,
   .call, .ret, .init]

/-- The build parameters of R7, one field each. -/
structure Config where
  /-- `W`, the width in bits of a machine word, of `ip`, `sp` and `fp`. -/
  wordBits : Nat
  /-- `STACK_CAPACITY`, the number of word slots of the operand stack. -/
  stackCapacity : Nat
  /-- `OPC`, the map from the mnemonics to opcode numbers. -/
  opc : Mnemonic → Nat
  /-- `TRUE`, the number BRT compares against and ILT, IEQ push. -/
  trueValue : Int
  /-- `FALSE`, the number BRF compares against and ILT, IEQ push. -/
  falseValue : Int
  /-- `OVERFLOW_POLICY`: for an exact result of IADD, ISUB or IMUL that fits no word, an integer congruent to the word
  that is delivered. -/
  overflow : Int → Int
  /-- `INIT_COPY`: of the `n` words INIT copies, the index of the one it copies `k`-th. -/
  initCopy : (n k : Nat) → Nat
  /-- `trace_en` after reset. -/
  traceEnAtReset : Bool

/-- The word a slot of the operand stack holds after the `r`-th reset and before anything writes it: unspecified
(spec/10_state.md R25, decision D13, U4: "any value", fixed for each slot until written). A FREE VALUE: it has no
body, so no proof can use a value of it. `w` is the width of a word. Log entry 5. -/
opaque Config.stackAtReset {w : Nat} (r slot : Nat) : BitVec w

end Sys2Proof
end

