-- ==== Sys2Proof/Machine/Build.lean ====
section
/-!
DEFINITION. The configuration in force: the value of each build parameter of spec/00_scope.md R7.
-/

namespace Sys2Proof

/-- The opcode numbers in the listing order of spec/30_encoding.md R73. DESIGN CHOICE, log entry 2: the spec's default
(decision D2). -/
def listingOrder : Mnemonic → Nat
  | .iadd => 1 | .isub => 2 | .imul => 3 | .ilt => 4 | .ieq => 5
  | .br => 6 | .brt => 7 | .brf => 8
  | .iconst => 9 | .load => 10 | .store => 11 | .gload => 12 | .gstore => 13
  | .print => 14 | .pop => 15 | .halt => 16
  | .call => 17 | .ret => 18 | .init => 19

/-- The values of R7. DESIGN CHOICE where the spec leaves the parameter open: `W` (log entry 1), `OPC` (log entry 2),
`OVERFLOW_POLICY`, the default `wrap`, which delivers the word of the exact result itself (log entry 3), `INIT_COPY`, the
default `ascending` (log entry 4). The others: log entries 13 (`trace_en`, decision D18) and 14. -/
@[reducible] def config : Config where
  wordBits := 32
  stackCapacity := 1000
  opc := listingOrder
  trueValue := 1
  falseValue := 0
  overflow := fun z => z
  initCopy := fun _ k => k
  traceEnAtReset := false

end Sys2Proof
end

