-- ==== Sys2Proof/Word.lean ====
section
/-!
DEFINITION. The machine word of the mVM core (spec/00_scope.md R9, spec/10_state.md R21).
Every value the core handles is one such word, read as a two's-complement signed integer.
-/

namespace Sys2Proof

/-- `W`, the width of a machine word in the configuration in force (R7). Log entry 1. -/
abbrev wordBits : Nat := config.wordBits

/-- A machine word: `W` bits, two's complement (R9, R21); `BitVec.toInt` reads it as an integer. -/
abbrev Word := BitVec wordBits

/-- `wrap(z)`: the unique word congruent to `z` modulo `2^W` (R9). -/
def wrap (z : Int) : Word := BitVec.ofInt wordBits z

end Sys2Proof
end

