-- ==== Sys2Proof/Machine/Params.lean ====
section
/-!
DEFINITION. The build parameters as the core uses them (spec/00_scope.md R7), read from the configuration in force.
-/

namespace Sys2Proof.Machine

/-- `STACK_CAPACITY`, the number of word slots of the operand stack (R7). -/
def stackCapacity : Nat := config.stackCapacity

/-- `TRUE` (R7, spec/42_branch.md R123). -/
def trueWord : Word := wrap config.trueValue

/-- `FALSE` (R7, spec/42_branch.md R123). -/
def falseWord : Word := wrap config.falseValue

/-- The integer is in the signed range of a word (R9). -/
def fitsWord (z : Int) : Bool := decide (-2 ^ (wordBits - 1) ≤ z) && decide (z < 2 ^ (wordBits - 1))

/-- The word IADD, ISUB and IMUL deliver for the exact result `z`: that integer if a word holds it, else what
`OVERFLOW_POLICY` says (R7, spec/41_arith.md R115). Log entry 3. -/
def overflowResult (z : Int) : Word := wrap (if fitsWord z then z else config.overflow z)

/-- `INIT_COPY`: which of the `n` words INIT copies `k`-th (R7, spec/45_call.md R152). Log entry 4. -/
def initCopyIndex (n k : Nat) : Nat := config.initCopy n k

end Sys2Proof.Machine
end

