-- ==== Sys2Proof/Machine/Flags.lean ====
section
/-!
DEFINITION. The core has no flags and no condition codes (spec/10_state.md R29). Their role is played by the
boolean words ILT and IEQ push and BRT and BRF test (spec/41_arith.md R117, spec/42_branch.md R123).
-/

namespace Sys2Proof.Machine

/-- The word a comparison pushes (R117). -/
def boolWord (b : Bool) : Word := if b then trueWord else falseWord

/-- BRT's test: the whole word equals TRUE (R121, R123). -/
def isTrue (v : Word) : Bool := v == trueWord

/-- BRF's test: the whole word equals FALSE (R122, R123). It is not the negation of `isTrue`. -/
def isFalse (v : Word) : Bool := v == falseWord

end Sys2Proof.Machine
end

