-- ==== Sys2Proof/Machine/State.lean ====
section
/-!
DEFINITION. The state of the mVM core as plain data (spec/10_state.md R20 to R36), the reasons a step can stop,
and the state right after reset (R38).
-/

namespace Sys2Proof.Machine

/-- A word memory as a list of (index, word) pairs in one canonical form: indices strictly rising (`Memory.Rising`),
and, for `Globals` and `IMem`, no entry equal to 0, what an unlisted index reads as (`Memory.wf`). -/
abbrev Memory := List (Nat × Word)

/-- `status` (R30). -/
inductive Status where
  /-- 0: reset has completed, `run()` has not been requested. -/
  | ready
  /-- 1: the loop is executing. -/
  | running
  /-- 2: the loop fetched a HALT opcode and stopped. -/
  | halted
  /-- 3: the loop stopped on a fault. -/
  | faulted
  deriving DecidableEq, Repr

/-- `cause` (R31, spec/60_exceptions.md R161). -/
inductive Cause where
  /-- 0: no fault has occurred. -/
  | noFault
  | ipOutOfBounds
  | unknownOpcode
  | operandOutOfBounds
  | globalIndexOutOfBounds
  | stackOverflow
  | stackUnderflow
  | stackIndexOutOfBounds
  | spOutOfRange
  deriving DecidableEq, Repr

/-- The source's two classes of core faults (spec/60_exceptions.md R160). -/
inductive FaultClass where
  | malformedProgram
  | stackFault
  deriving DecidableEq, Repr

/-- A record of the trace port (spec/60_exceptions.md R173 to R177). -/
inductive TraceRecord where
  /-- The disassembly of the instruction at word index `cur` (R174). -/
  | disasm (cur opcode : Word) (operands : List Word)
  /-- The live stack, lowest index first (R175). -/
  | stackDump (entries : List (Nat × Word))
  /-- The global slots that are not negative (R177). -/
  | dataDump (entries : List (Nat × Word))
  /-- The instruction words that are not negative (R177); only at the host's request. -/
  | codeDump (entries : List (Nat × Word))
  deriving DecidableEq, Repr

/-- One event of the two output ports in the order they happened (R178). -/
inductive Event where
  /-- A word PRINT sent to the output port (R35). -/
  | output (w : Word)
  /-- A record of the trace port (R36). -/
  | record (r : TraceRecord)
  deriving DecidableEq, Repr

/-- The complete state of the core (R20). -/
structure State where
  /-- Instruction pointer, a word index into `IMem` (R22). -/
  ip : Word
  /-- Stack pointer, the index of the top word, -1 when empty (R23). -/
  sp : Word
  /-- Frame pointer (R24). -/
  fp : Word
  /-- `Stack` (R25): the slots written since reset; any other slot holds the free value of that slot. -/
  stack : Memory
  /-- `Globals` (R26); an unlisted slot is 0. -/
  globals : Memory
  /-- `IMem` (R27); an unlisted word is 0. -/
  imem : Memory
  /-- `status` (R30). -/
  status : Status
  /-- `cause` (R31). -/
  cause : Cause
  /-- `fault_ip` (R32): absent until a fault. -/
  faultIp : Option Word
  /-- `fault_info` (R32): absent until a fault. -/
  faultInfo : Option Word
  /-- `trace_en` (R33). -/
  traceEn : Bool
  /-- `ICOUNT` (R34). -/
  icount : Word
  /-- `ENTRY` (R34). -/
  entry : Word
  /-- `GCOUNT` (R34). -/
  gcount : Word
  /-- The output port's words and the trace port's records in one sequence, oldest first (R35, R36, R178). -/
  events : List Event
  /-- The model's own: how many resets came before the last one; it tags the draw of unspecified stack contents.
  Log entry 5. -/
  resetCount : Nat
  deriving DecidableEq, Repr

/-- Why the step function stops without a next state. A fault of the core itself (R162) is not one of these: it is a
next state whose `status` is `faulted`. -/
inductive Fault where
  /-- Raised by `step` when `status` is READY: the core has no step before `run()` (R90). Safe: the hardware does
  nothing here. Log entry 6. -/
  | noStepWhileReady
  /-- Raised by `step` when `status` is HALTED: the run has ended (R90). Safe. Log entry 6. -/
  | noStepAfterHalt
  /-- Raised by `step` when `status` is FAULTED: the run has ended (R90, R166). Safe. Log entry 6. -/
  | noStepAfterFault
  deriving DecidableEq, Repr

/-- Why an instruction is given no meaning. -/
inductive Refusal where
  /-- Raised by an arm of `exec` for an instruction the model does not have; no arm raises it. Safe. -/
  | notModelled (mnemonic : String)
  deriving DecidableEq, Repr

/-- The words the output port has carried since reset, oldest first (R35). -/
def State.out (s : State) : List Word :=
  s.events.filterMap fun
    | .output w => some w
    | .record _ => none

/-- The records the trace port has carried since reset, oldest first (R36). -/
def State.trace (s : State) : List TraceRecord :=
  s.events.filterMap fun
    | .output _ => none
    | .record r => some r

/-- The state right after the first reset with no program presented (R38, R190). The host supplies the program with
the reset: `construct` (Machine/HostPort.lean) is the reset that loads one. Log entries 5, 8, 9. -/
def State.reset : State where
  ip := 0
  sp := -1
  fp := -1
  stack := []
  globals := []
  imem := []
  status := .ready
  cause := .noFault
  faultIp := none
  faultInfo := none
  traceEn := config.traceEnAtReset
  icount := 0
  entry := 0
  gcount := 0
  events := []
  resetCount := 0

end Sys2Proof.Machine
end

