-- ==== Sys2Proof/Machine/Memory.lean ====
section
/-!
DEFINITION. The three word memories (spec/20_memory.md R50 to R56, spec/10_state.md R25 to R27): how a list of
(index, word) pairs is read and written, its canonical form, and what an unlisted index reads as in each space.
-/

namespace Sys2Proof.Machine

/-- The word listed at an index, if one is. -/
def Memory.lookup : Memory → Nat → Option Word
  | [], _ => none
  | (j, w) :: m, i => if j = i then some w else Memory.lookup m i

/-- List the word `v` at index `i`, keeping the indices rising. -/
def Memory.insert : Memory → Nat → Word → Memory
  | [], i, v => [(i, v)]
  | (j, w) :: m, i, v =>
    if i < j then (i, v) :: (j, w) :: m
    else if i = j then (i, v) :: m
    else (j, w) :: Memory.insert m i v

/-- List nothing at index `i`. -/
def Memory.erase (m : Memory) (i : Nat) : Memory := m.filter fun c => c.1 != i

/-- Read a memory whose unlisted words are 0: `Globals` (R26) and `IMem`. -/
def Memory.read (m : Memory) (i : Nat) : Word := (m.lookup i).getD 0

/-- Write a memory whose unlisted words are 0: writing 0 removes the entry. -/
def Memory.write (m : Memory) (i : Nat) (v : Word) : Memory := if v = 0 then m.erase i else m.insert i v

/-- The indices are strictly rising. -/
abbrev Memory.Rising (m : Memory) : Prop := m.Pairwise fun a b => a.1 < b.1

/-- The canonical form of a memory whose unlisted words are 0. -/
abbrev Memory.wf (m : Memory) : Prop := m.Rising ∧ ∀ c ∈ m, c.2 ≠ 0

/-- Every listed index is below `n`. -/
abbrev Memory.below (m : Memory) (n : Nat) : Prop := ∀ c ∈ m, c.1 < n

/-- `Stack[i]`: the word last written since reset, else the free value of that slot (R25, log entry 5). -/
def stackRead (s : State) (i : Nat) : Word := (s.stack.lookup i).getD (Config.stackAtReset s.resetCount i)

/-- `Stack[i] <- v` (R10). -/
def stackWrite (s : State) (i : Nat) (v : Word) : State := { s with stack := s.stack.insert i v }

/-- `Globals[i]` (R26). -/
def globalRead (s : State) (i : Nat) : Word := s.globals.read i

/-- `Globals[i] <- v`. -/
def globalWrite (s : State) (i : Nat) (v : Word) : State := { s with globals := s.globals.write i v }

/-- `IMem[z]` if `0 <= z < ICOUNT`, the check that comes before every read of the instruction memory (R56). -/
def imemAt (s : State) (z : Int) : Option Word :=
  if 0 ≤ z ∧ z < s.icount.toInt then some (s.imem.read z.toNat) else none

/-- A memory listing the words of a program from index `i` on. -/
def Memory.ofWords : Nat → List Word → Memory
  | _, [] => []
  | i, w :: ws => if w = 0 then Memory.ofWords (i + 1) ws else (i, w) :: Memory.ofWords (i + 1) ws

/-- The memories of a state are in canonical form. -/
abbrev State.memoriesWf (s : State) : Prop := s.stack.Rising ∧ s.globals.wf ∧ s.imem.wf

end Sys2Proof.Machine
end

