-- ==== Sys2Proof/Machine/Ops.lean ====
section
/-!
DEFINITION. The named operations every instruction is written with (spec/40_pipeline.md R98 to R103): how a
statement of an instruction's pseudocode goes on or raises a fault, taking a fault (spec/60_exceptions.md R162),
and the stack, global and output primitives. There is no return from a fault (R166), so no operation for one.
-/

namespace Sys2Proof.Machine

/-- What a step or an instruction answers. -/
abbrev Outcome := Host.Outcome State Fault Refusal

/-- What a piece of pseudocode leaves: it goes on with a value, or it has raised `Fault(cause, info)`. Either way the
state holds everything the earlier statements did: nothing is undone (R106). -/
inductive Flow (α : Type) where
  | go (a : α) (s : State)
  | trap (c : Cause) (info : Word) (s : State)
  deriving DecidableEq, Repr

/-- The next statement: it runs if the one before went on (R10). -/
def Flow.bind {α β : Type} (r : Flow α) (k : α → State → Flow β) : Flow β :=
  match r with
  | .go a s => k a s
  | .trap c info s => .trap c info s

/-- `Fault(CAUSE, info)`, the only trap entry (R162). `cur` is the index of the opcode word of the instruction being
executed. -/
def takeFault (c : Cause) (info cur : Word) (s : State) : State :=
  { s with
    cause := c
    faultInfo := some info
    faultIp := some (if c = .ipOutOfBounds then s.ip else cur)
    status := .faulted }

/-- The end of an instruction that began at `cur`: a fault it raised is taken, and is a next state (R162). -/
def Flow.finish (cur : Word) : Flow Unit → Outcome
  | .go _ s => .next s
  | .trap c info s => .next (takeFault c info cur s)

/-- `cur`, from the execute phase's `ip`: `ip = cur + 1 + arity` is a fixed fact of that phase (decision D9).
Log entry 7. -/
def instrStart (length : Nat) (s : State) : Word := s.ip - BitVec.ofNat wordBits length

/-- `Push(v)` (R98). -/
def push (v : Word) (s : State) : Flow Unit :=
  if s.sp.toInt + 1 ≥ stackCapacity then .trap .stackOverflow s.sp s
  else .go () (stackWrite { s with sp := s.sp + 1 } (s.sp.toInt + 1).toNat v)

/-- `Pop()` (R99). The slot keeps its word (R25). -/
def pop (s : State) : Flow Word :=
  if s.sp.toInt < 0 then .trap .stackUnderflow s.sp s
  else .go (stackRead s s.sp.toInt.toNat) { s with sp := s.sp - 1 }

/-- `SetSp(z)` (R100). -/
def setSp (z : Int) (s : State) : Flow Unit :=
  if z < -1 ∨ z > (stackCapacity : Int) - 1 then .trap .spOutOfRange (wrap z) s
  else .go () { s with sp := wrap z }

/-- `StackIdx(z)` (R101). -/
def stackIdx (z : Int) (s : State) : Flow Nat :=
  if z < 0 ∨ z ≥ stackCapacity then .trap .stackIndexOutOfBounds (wrap z) s
  else .go z.toNat s

/-- `GlobalIdx(v)` (R102). -/
def globalIdx (v : Word) (s : State) : Flow Nat :=
  if v.toInt < 0 ∨ v.toInt ≥ s.gcount.toInt then .trap .globalIndexOutOfBounds v s
  else .go v.toInt.toNat s

/-- `Out(v)` (R103): it always succeeds. -/
def out (v : Word) (s : State) : Flow Unit := .go () { s with events := s.events ++ [.output v] }

/-- `ip <- w` (R22). -/
def setIp (w : Word) (s : State) : Flow Unit := .go () { s with ip := w }

/-- `fp <- w` (R24). -/
def setFp (w : Word) (s : State) : Flow Unit := .go () { s with fp := w }

end Sys2Proof.Machine
end

