-- ==== Sys2Proof/Machine/Arith.lean ====
section
/-!
DEFINITION. The opcode ALU: IADD, ISUB, IMUL, ILT, IEQ (spec/41_arith.md R110 to R117). The word popped first is the
right operand (R116).
-/

namespace Sys2Proof.Machine

/-- Pop `b`, pop `a`, push `f a b` (R116). -/
def binary (f : Word → Word → Word) (s : State) : Flow Unit :=
  (pop s).bind fun b s => (pop s).bind fun a s => push (f a b) s

/-- IADD (R110). -/
def execIadd (s : State) : Outcome :=
  (binary (fun a b => overflowResult (a.toInt + b.toInt)) s).finish (instrStart 1 s)

/-- ISUB (R111). -/
def execIsub (s : State) : Outcome :=
  (binary (fun a b => overflowResult (a.toInt - b.toInt)) s).finish (instrStart 1 s)

/-- IMUL (R112). -/
def execImul (s : State) : Outcome :=
  (binary (fun a b => overflowResult (a.toInt * b.toInt)) s).finish (instrStart 1 s)

/-- ILT (R113). -/
def execIlt (s : State) : Outcome :=
  (binary (fun a b => boolWord (decide (a.toInt < b.toInt))) s).finish (instrStart 1 s)

/-- IEQ (R114). -/
def execIeq (s : State) : Outcome :=
  (binary (fun a b => boolWord (a == b)) s).finish (instrStart 1 s)

end Sys2Proof.Machine
end

