-- ==== Sys2Proof/Machine/Branch.lean ====
section
/-!
DEFINITION. BR, BRT, BRF (spec/42_branch.md R120 to R125). A target is an absolute word index and is not checked
here: a bad one shows at the next fetch (R124).
-/

namespace Sys2Proof.Machine

/-- Pop a word and branch to `addr` if `taken` holds of it; the word is consumed either way (R123). -/
def popBranch (taken : Word → Bool) (addr : Word) (s : State) : Flow Unit :=
  (pop s).bind fun v s => if taken v then setIp addr s else .go () s

/-- BR (R120). -/
def execBr (addr : Word) (s : State) : Outcome := (setIp addr s).finish (instrStart 2 s)

/-- BRT (R121). -/
def execBrt (addr : Word) (s : State) : Outcome := (popBranch isTrue addr s).finish (instrStart 2 s)

/-- BRF (R122). -/
def execBrf (addr : Word) (s : State) : Outcome := (popBranch isFalse addr s).finish (instrStart 2 s)

end Sys2Proof.Machine
end

