-- ==== Sys2Proof/Machine/Call.lean ====
section
/-!
DEFINITION. CALL, RET, INIT (spec/45_call.md R150 to R156). The order of the statements is the spec's (R106, R196).
-/

namespace Sys2Proof.Machine

/-- CALL's pseudocode (R150). -/
def callBody (addr nargs : Word) (s : State) : Flow Unit :=
  (push nargs s).bind fun _ s =>
  (push s.fp s).bind fun _ s =>
  (push s.ip s).bind fun _ s =>
  (setFp s.sp s).bind fun _ s =>
  setIp addr s

/-- CALL (R150). -/
def execCall (addr nargs : Word) (s : State) : Outcome := (callBody addr nargs s).finish (instrStart 3 s)

/-- RET's pseudocode (R151). -/
def retBody (s : State) : Flow Unit :=
  (pop s).bind fun rv s =>
  (setSp s.fp.toInt s).bind fun _ s =>
  (pop s).bind fun ra s =>
  (setIp ra s).bind fun _ s =>
  (pop s).bind fun callerFp s =>
  (setFp callerFp s).bind fun _ s =>
  (pop s).bind fun nargs s =>
  (setSp (s.sp.toInt - nargs.toInt) s).bind fun _ s =>
  push rv s

/-- RET (R151). -/
def execRet (s : State) : Outcome := (retBody s).finish (instrStart 1 s)

/-- One word of INIT's copy: `Stack[StackIdx(fp + i)] <- Stack[StackIdx(base + i)]`, source checked first (R152). -/
def copyWord (base : Int) (i : Nat) (s : State) : Flow Unit :=
  (stackIdx (base + i) s).bind fun src s =>
  (stackIdx (s.fp.toInt + i) s).bind fun dst s =>
  .go () (stackWrite s dst (stackRead s src))

/-- The last `left` of the `n` copies of INIT, each seeing the writes of the earlier ones (R152). -/
def copyWords (base : Int) (n : Nat) : Nat → State → Flow Unit
  | 0, s => .go () s
  | left + 1, s =>
    (copyWord base (initCopyIndex n (n - (left + 1))) s).bind fun _ s => copyWords base n left s

/-- INIT's pseudocode (R152). DEDUCED, log entry 4: the spec marks it as its reading of a contradictory source. -/
def initBody (s : State) : Flow Unit :=
  (pop s).bind fun nargs s =>
  (pop s).bind fun addr s =>
  (copyWords (s.sp.toInt - nargs.toInt + 1) nargs.toInt.toNat nargs.toInt.toNat s).bind fun _ s =>
  (setSp (s.sp.toInt - nargs.toInt) s).bind fun _ s =>
  setIp addr s

/-- INIT (R152). -/
def execInit (s : State) : Outcome := (initBody s).finish (instrStart 1 s)

end Sys2Proof.Machine
end

