-- ==== Sys2Proof/Machine/Operands.lean ====
section
/-!
DEFINITION. The operand forms: fetching an inline operand word (spec/40_pipeline.md R97), and the two addressing
modes of the data instructions (spec/43_data.md R135).
-/

namespace Sys2Proof.Machine

/-- `Operand()`: the operand word at `ip`, which moves past it (R97). -/
def operand (s : State) : Flow Word :=
  match imemAt s s.ip.toInt with
  | none => .trap .operandOutOfBounds s.ip s
  | some v => .go v { s with ip := s.ip + 1 }

/-- The effective index `fp + off` of LOAD and STORE, formed in Z (R135). -/
def frameIndex (off : Word) (s : State) : Int := s.fp.toInt + off.toInt

/-- The frame-relative mode: `StackIdx(fp + off)` (R135). -/
def frameSlot (off : Word) (s : State) : Flow Nat := stackIdx (frameIndex off s) s

/-- The absolute mode: `GlobalIdx(off)` (R135). -/
def globalSlot (off : Word) (s : State) : Flow Nat := globalIdx off s

end Sys2Proof.Machine
end

