-- ==== Sys2Proof/Machine/Data.lean ====
section
/-!
DEFINITION. ICONST, LOAD, STORE, GLOAD, GSTORE (spec/43_data.md R130 to R136).
-/

namespace Sys2Proof.Machine

/-- ICONST (R130). -/
def execIconst (k : Word) (s : State) : Outcome := (push k s).finish (instrStart 2 s)

/-- LOAD (R131): the slot is read before the push. -/
def execLoad (off : Word) (s : State) : Outcome :=
  ((frameSlot off s).bind fun i s => push (stackRead s i) s).finish (instrStart 2 s)

/-- STORE (R132): pop, then the index check, then the write. -/
def execStore (off : Word) (s : State) : Outcome :=
  ((pop s).bind fun v s => (frameSlot off s).bind fun i s => .go () (stackWrite s i v)).finish (instrStart 2 s)

/-- GLOAD (R133). -/
def execGload (off : Word) (s : State) : Outcome :=
  ((globalSlot off s).bind fun g s => push (globalRead s g) s).finish (instrStart 2 s)

/-- GSTORE (R134): pop, then the index check, then the write. -/
def execGstore (off : Word) (s : State) : Outcome :=
  ((pop s).bind fun v s => (globalSlot off s).bind fun g s => .go () (globalWrite s g v)).finish (instrStart 2 s)

end Sys2Proof.Machine
end

