-- ==== Sys2Proof/Syntax.lean ====
section
/-!
DEFINITION. The nineteen instructions of the mVM ISA (spec/30_encoding.md R73, spec/opcode_table.json), one
constructor per row of the table, with their operand words (R72).
-/

namespace Sys2Proof

/-- An instruction with its operands. Every operand is one whole signed word, used exactly as stored (R72). -/
inductive Instr where
  /-- Integer add (R110). -/
  | iadd
  /-- Integer subtract (R111). -/
  | isub
  /-- Integer multiply (R112). -/
  | imul
  /-- Signed less-than (R113). -/
  | ilt
  /-- Equality (R114). -/
  | ieq
  /-- Branch to the absolute word index `addr` (R120). -/
  | br (addr : Word)
  /-- Branch if true (R121). -/
  | brt (addr : Word)
  /-- Branch if false (R122). -/
  | brf (addr : Word)
  /-- Push the literal `k` (R130). -/
  | iconst (k : Word)
  /-- Push `Stack[fp + off]` (R131). -/
  | load (off : Word)
  /-- Pop into `Stack[fp + off]` (R132). -/
  | store (off : Word)
  /-- Push `Globals[off]` (R133). -/
  | gload (off : Word)
  /-- Pop into `Globals[off]` (R134). -/
  | gstore (off : Word)
  /-- Pop a word and send it to the output port (R140). -/
  | print
  /-- Discard the top word (R141). -/
  | pop
  /-- Stop (R142). -/
  | halt
  /-- Call the function at `addr`, recording the argument count `nargs` (R150). -/
  | call (addr nargs : Word)
  /-- Return with one value (R151). -/
  | ret
  /-- Copy arguments to the frame and jump (R152). -/
  | init
  deriving DecidableEq, Repr

end Sys2Proof
end

