-- ==== Sys2Proof/WellFormed.lean ====
section
/-!
DEFINITION. What the spec asks of the inputs. An instruction has no ill-formed operand: any word is a legal
operand word (spec/30_encoding.md R72, R75), which the type `Word` already says. What can be ill-formed is a
configuration (spec/00_scope.md R7, R8; the one in force is not, Tests/Slice0.lean) and the
image the host presents with the reset (spec/00_scope.md R7, R8; spec/70_reset_and_hazards.md R193). The hardware
checks none of it at reset (R190); a violation shows as a fault when execution reaches it.
-/

namespace Sys2Proof

/-- Every instruction is well formed: its operands are whole words and every word is legal (R72). -/
def Instr.wellFormed : Instr → Bool
  | .iadd | .isub | .imul | .ilt | .ieq => true
  | .br _ | .brt _ | .brf _ => true
  | .iconst _ | .load _ | .store _ | .gload _ | .gstore _ => true
  | .print | .pop | .halt => true
  | .call _ _ | .ret | .init => true

/-- `W` is at least 32 (R7). -/
def Config.widthOk (c : Config) : Bool := decide (32 ≤ c.wordBits)

/-- `STACK_CAPACITY < 2^(W-1)` (R8). -/
def Config.capacityOk (c : Config) : Bool := decide (c.stackCapacity < 2 ^ (c.wordBits - 1))

/-- `OPC` takes every number from 1 to 19, so that its nineteen values are these and no two mnemonics share one (R7). -/
def Config.opcOk (c : Config) : Bool := (List.range 19).all fun n => Mnemonic.all.any fun m => c.opc m == n + 1

/-- What R7 and R8 ask of the build parameters. -/
def Config.wellFormed (c : Config) : Bool := c.widthOk && c.capacityOk && c.opcOk

/-- What the host presents with the reset: the program, the entry index and the number of globals (R190). -/
structure LoadImage where
  program : List Word
  entry   : Word
  gcount  : Word
  deriving DecidableEq, Repr

/-- `1 <= ICOUNT < 2^(W-1)` (R7, R8). -/
def LoadImage.sizeOk (m : LoadImage) : Bool :=
  decide (1 ≤ m.program.length) && decide (m.program.length < 2 ^ (wordBits - 1))

/-- `0 <= ENTRY` and `ICOUNT >= ENTRY + 1` (R8, R193). -/
def LoadImage.entryOk (m : LoadImage) : Bool :=
  decide (0 ≤ m.entry.toInt) && decide (m.entry.toInt + 1 ≤ m.program.length)

/-- `0 <= GCOUNT` (R7, R193); `GCOUNT < 2^(W-1)` holds of every word. -/
def LoadImage.gcountOk (m : LoadImage) : Bool := decide (0 ≤ m.gcount.toInt)

/-- What the rules of the spec need to describe a useful run (R193). -/
def LoadImage.wellFormed (m : LoadImage) : Bool := m.sizeOk && m.entryOk && m.gcountOk

end Sys2Proof
end

