-- ==== Sys2Proof/Decode.lean ====
section
/-!
DEFINITION. The Instruction Set Table, the decoder and the encoder (spec/30_encoding.md R70 to R82,
spec/opcode_table.json). Only `opcodeNumber` depends on the opcode numbers (R73).
-/

namespace Sys2Proof

/-- `OPC`, the map from mnemonics to opcode numbers (R73), as configured. Log entry 2. -/
def opcodeNumber (m : Mnemonic) : Nat := config.opc m

/-- The opcode word of a mnemonic: its number as a whole word (R71). -/
def opcodeWord (m : Mnemonic) : Word := BitVec.ofNat wordBits (opcodeNumber m)

/-- The text of a mnemonic (R74, R78). -/
def Mnemonic.text : Mnemonic → String
  | .iadd => "IADD" | .isub => "ISUB" | .imul => "IMUL" | .ilt => "ILT" | .ieq => "IEQ"
  | .br => "BR" | .brt => "BRT" | .brf => "BRF"
  | .iconst => "ICONST" | .load => "LOAD" | .store => "STORE" | .gload => "GLOAD" | .gstore => "GSTORE"
  | .print => "PRINT" | .pop => "POP" | .halt => "HALT"
  | .call => "CALL" | .ret => "RET" | .init => "INIT"

/-- How an instruction is put together from its operand words: formats F0, F1 and F2 (R70). -/
inductive Shape where
  | f0 (i : Instr)
  | f1 (mk : Word → Instr)
  | f2 (mk : Word → Word → Instr)

/-- The format of each mnemonic (R72, R74). -/
def Mnemonic.shape : Mnemonic → Shape
  | .iadd => .f0 .iadd | .isub => .f0 .isub | .imul => .f0 .imul | .ilt => .f0 .ilt | .ieq => .f0 .ieq
  | .br => .f1 .br | .brt => .f1 .brt | .brf => .f1 .brf
  | .iconst => .f1 .iconst | .load => .f1 .load | .store => .f1 .store
  | .gload => .f1 .gload | .gstore => .f1 .gstore
  | .print => .f0 .print | .pop => .f0 .pop | .halt => .f0 .halt
  | .call => .f2 .call | .ret => .f0 .ret | .init => .f0 .init

/-- The number of operand words (R74). -/
def Mnemonic.arity (m : Mnemonic) : Nat :=
  match m.shape with
  | .f0 _ => 0
  | .f1 _ => 1
  | .f2 _ => 2

/-- The opcode match: the mnemonic whose number the whole word equals, if there is one (R71, R75). -/
def Mnemonic.ofOpcode (w : Word) : Option Mnemonic := Mnemonic.all.find? fun m => opcodeWord m == w

/-- The Instruction Set Table as a lookup: mnemonic text and operand count. Outside 1 to 19 the spec's lookup is
undefined and never done; here there is no entry (R74, R81, U1). -/
def instructionSetTable (opcode : Word) : Option (String × Nat) :=
  (Mnemonic.ofOpcode opcode).map fun m => (m.text, m.arity)

/-- The mnemonic of an instruction. -/
def Instr.mnemonic : Instr → Mnemonic
  | .iadd => .iadd | .isub => .isub | .imul => .imul | .ilt => .ilt | .ieq => .ieq
  | .br _ => .br | .brt _ => .brt | .brf _ => .brf
  | .iconst _ => .iconst | .load _ => .load | .store _ => .store | .gload _ => .gload | .gstore _ => .gstore
  | .print => .print | .pop => .pop | .halt => .halt
  | .call _ _ => .call | .ret => .ret | .init => .init

/-- The operand words of an instruction, first operand first (R72). -/
def Instr.operands : Instr → List Word
  | .iadd | .isub | .imul | .ilt | .ieq | .print | .pop | .halt | .ret | .init => []
  | .br a | .brt a | .brf a | .iconst a | .load a | .store a | .gload a | .gstore a => [a]
  | .call a n => [a, n]

/-- The length of an instruction in words: `1 + arity` (R76). -/
def Instr.length (i : Instr) : Nat := 1 + i.mnemonic.arity

/-- Why a list of words holds no instruction. -/
inductive DecodeError where
  /-- There is no opcode word. -/
  | noOpcode
  /-- The opcode word is none of the nineteen numbers (R75). -/
  | unknownOpcode (w : Word)
  /-- Only `present` of the instruction's operand words are there (R82). -/
  | missingOperand (present : Nat)
  deriving DecidableEq, Repr

/-- The decoder, total on every list of words: one instruction and the words after it, or a rejection by name. -/
def decode : List Word → Except DecodeError (Instr × List Word)
  | [] => .error .noOpcode
  | w :: ws =>
    match Mnemonic.ofOpcode w with
    | none => .error (.unknownOpcode w)
    | some m =>
      match m.shape, ws with
      | .f0 i, ws => .ok (i, ws)
      | .f1 _, [] => .error (.missingOperand 0)
      | .f1 mk, a :: ws => .ok (mk a, ws)
      | .f2 _, [] => .error (.missingOperand 0)
      | .f2 _, [_] => .error (.missingOperand 1)
      | .f2 mk, a :: b :: ws => .ok (mk a b, ws)

/-- The words of an instruction: its opcode word, then its operand words (R70, R72). -/
def encode (i : Instr) : List Word := opcodeWord i.mnemonic :: i.operands

/-- The decoded instruction alone. -/
def decodedInstr : Except DecodeError (Instr × List Word) → Option Instr
  | .ok (i, _) => some i
  | .error _ => none

/-- Sequential decoding with `fuel` instructions at most: opcode, skip its operand words, repeat (R76). It gives each
instruction with the index it starts at, and stops at the first word that does not decode. -/
def disassemble : Nat → Nat → List Word → List (Nat × Instr)
  | 0, _, _ => []
  | fuel + 1, at_, ws =>
    match decode ws with
    | .ok (i, rest) => (at_, i) :: disassemble fuel (at_ + i.length) rest
    | .error _ => []

/-- The three words of a table row's bits: the first word is bits `W - 1` to 0, the second the next `W` bits, and so on;
every bit from `nbits` up is 0. -/
def tableWords (nbits w : Nat) : List Word :=
  let bits := w % 2 ^ nbits
  [BitVec.ofNat wordBits bits, BitVec.ofNat wordBits (bits / 2 ^ wordBits),
    BitVec.ofNat wordBits (bits / 2 ^ (2 * wordBits))]

/-- The instruction the decoder reads from a table row's bits. -/
def decodeTableWord (nbits w : Nat) : Option Instr := decodedInstr (decode (tableWords nbits w))

end Sys2Proof
end

