-- ==== Sys2Proof/Machine/Trace.lean ====
section
/-!
DEFINITION. The trace unit (spec/60_exceptions.md R173 to R179): it only reads, and appends records to the trace
when `trace_en` is set.
-/

namespace Sys2Proof.Machine

/-- Append a record if tracing is on (R173). -/
def emit (r : TraceRecord) (s : State) : State :=
  if s.traceEn then { s with events := s.events ++ [.record r] } else s

/-- The operand words a disassembly shows: those of the opcode's operands that lie inside `IMem`; none for an unknown
opcode (R174). -/
def traceOperands (cur opcode : Word) (s : State) : List Word :=
  match Mnemonic.ofOpcode opcode with
  | none => []
  | some m => (List.range m.arity).filterMap fun k => imemAt s (cur.toInt + 1 + k)

/-- The live slots `(0, Stack[0]) .. (sp, Stack[sp])` (R175). -/
def liveStack (s : State) : List (Nat × Word) :=
  (List.range (s.sp.toInt + 1).toNat).map fun i => (i, stackRead s i)

/-- The slots `0 .. n - 1` of a memory whose word is not negative, in rising order (R177). -/
def nonNegative (n : Nat) (m : Memory) : List (Nat × Word) :=
  ((List.range n).map fun i => (i, m.read i)).filter fun c => decide (0 ≤ c.2.toInt)

/-- `DataDump` (R177). -/
def dataDump (s : State) : TraceRecord := .dataDump (nonNegative s.gcount.toInt.toNat s.globals)

/-- `CodeDump` (R177). -/
def codeDump (s : State) : TraceRecord := .codeDump (nonNegative s.icount.toInt.toNat s.imem)

/-- `TracePre(cur, opcode)` (R174). -/
def tracePre (cur opcode : Word) (s : State) : State := emit (.disasm cur opcode (traceOperands cur opcode s)) s

/-- `TracePost` (R175). -/
def tracePost (s : State) : State := emit (.stackDump (liveStack s)) s

/-- `TraceFinal` (R176): the HALT's line, the stack, the globals. -/
def traceFinal (s : State) : State :=
  emit (dataDump s) (emit (.stackDump (liveStack s)) (emit (.disasm s.ip (opcodeWord .halt) []) s))

/-- The end of a step: `TracePost` follows an instruction that neither faulted nor halted (R91 E2, R175, R176). -/
def retire : Outcome → Outcome
  | .next t => .next (if t.status = .running then tracePost t else t)
  | .fault r => .fault r
  | .refused r => .refused r

/-- A decimal numeral padded with zeros to `width` digits. -/
def zeroPadded (width n : Nat) : String :=
  let digits := toString n
  String.ofList (List.replicate (width - digits.length) '0') ++ digits

/-- The fields of a disassembly line the spec gives (R174): the index padded to 4 digits, the mnemonic, the operand
values. What separates them is not given (N8). Log entry 12. -/
def disasmFields (cur opcode : Word) (operands : List Word) : List String :=
  zeroPadded 4 cur.toNat ::
    ((instructionSetTable opcode).map (·.1)).toList ++ operands.map fun w => toString w.toInt

/-- The text of a stack dump: `index=value`, comma-separated (R175). Log entry 12. -/
def stackDumpText (entries : List (Nat × Word)) : String :=
  String.intercalate "," (entries.map fun c => toString c.1 ++ "=" ++ toString c.2.toInt)

/-- The lines of a memory dump: `zero-padded-index : value`, one per slot (R177). The width of the index is not given (N8),
so it is an argument. Log entry 12. -/
def dumpLines (width : Nat) (entries : List (Nat × Word)) : List String :=
  entries.map fun c => zeroPadded width c.1 ++ " : " ++ toString c.2.toInt

end Sys2Proof.Machine
end

