-- ==== Sys2Proof/Machine/StackIo.lean ====
section
/-!
DEFINITION. PRINT, POP, HALT (spec/44_stack_io.md R140 to R142).
-/

namespace Sys2Proof.Machine

/-- PRINT (R140). -/
def execPrint (s : State) : Outcome := ((pop s).bind fun v s => out v s).finish (instrStart 1 s)

/-- POP (R141). -/
def execPop (s : State) : Outcome := ((pop s).bind fun _ s => .go () s).finish (instrStart 1 s)

/-- HALT (R142): the fetch phase recognises it, so `ip` is still the index of the HALT word (R93). -/
def execHalt (s : State) : Outcome := .next (traceFinal { s with status := .halted })

end Sys2Proof.Machine
end

