-- ==== Sys2Proof/Machine/Dispatch.lean ====
section
/-!
DEFINITION. The execute phase's dispatch (spec/40_pipeline.md R104): one arm per instruction. The state `exec` is given
has `ip` past the instruction's last word (R97); for HALT, which the fetch phase recognises, `ip` is at the HALT word (R93).
-/

namespace Sys2Proof.Machine

def exec (i : Instr) (s : State) : Host.Outcome State Fault Refusal :=
  match i with
  | .iadd => Sys2Proof.Machine.execIadd s
  | .isub => Sys2Proof.Machine.execIsub s
  | .imul => Sys2Proof.Machine.execImul s
  | .ilt => Sys2Proof.Machine.execIlt s
  | .ieq => Sys2Proof.Machine.execIeq s
  | .br addr => Sys2Proof.Machine.execBr addr s
  | .brt addr => Sys2Proof.Machine.execBrt addr s
  | .brf addr => Sys2Proof.Machine.execBrf addr s
  | .iconst k => Sys2Proof.Machine.execIconst k s
  | .load off => Sys2Proof.Machine.execLoad off s
  | .store off => Sys2Proof.Machine.execStore off s
  | .gload off => Sys2Proof.Machine.execGload off s
  | .gstore off => Sys2Proof.Machine.execGstore off s
  | .print => Sys2Proof.Machine.execPrint s
  | .pop => Sys2Proof.Machine.execPop s
  | .halt => Sys2Proof.Machine.execHalt s
  | .call addr nargs => Sys2Proof.Machine.execCall addr nargs s
  | .ret => Sys2Proof.Machine.execRet s
  | .init => Sys2Proof.Machine.execInit s

end Sys2Proof.Machine
end

