-- ==== Sys2Proof/Machine/Fetch.lean ====
section
/-!
DEFINITION. The fetch and decode phases of a step (spec/40_pipeline.md R91 to R97).
-/

namespace Sys2Proof.Machine

/-- The words of `IMem` from index `z` on, `n` at most, up to the end of the instruction memory (R82). -/
def imemWordsFrom (s : State) : Int → Nat → List Word
  | _, 0 => []
  | z, n + 1 =>
    match imemAt s z with
    | none => []
    | some w => w :: imemWordsFrom s (z + 1) n

/-- The words the next instruction is decoded from: at most three, from `ip` on (spec/30_encoding.md R70, R76). -/
def instructionWords (s : State) : List Word := imemWordsFrom s s.ip.toInt 3

/-- The decode phase D1 to D4: the table lookup, then the operand words, all before any execute action (R96, R97). -/
def decodePhase (opcode : Word) (s : State) : Flow Instr :=
  match Mnemonic.ofOpcode opcode with
  | none => .trap .unknownOpcode opcode s
  | some m =>
    match m.shape with
    | .f0 i => .go i s
    | .f1 mk => (operand s).bind fun a s => .go (mk a) s
    | .f2 mk => (operand s).bind fun a s => (operand s).bind fun b s => .go (mk a b) s

/-- The fetch phase F1 to F5 and then the decode phase: bounds check before the read (R92), HALT recognised before
anything else is done with it (R93), `TracePre` before `ip` advances (R174), `ip` past the opcode word (R95). -/
def fetch (s : State) : Flow Instr :=
  match imemAt s s.ip.toInt with
  | none => .trap .ipOutOfBounds s.ip s
  | some opcode =>
    if opcode = opcodeWord .halt then .go .halt s
    else
      let t := tracePre s.ip opcode s
      decodePhase opcode { t with ip := t.ip + 1 }

end Sys2Proof.Machine
end

