-- ==== Sys2Proof/Machine/Step.lean ====
section
/-!
DEFINITION. The one step of the core (spec/40_pipeline.md R90, R91), and how the host's question about one instruction
word is put to it.
-/

namespace Sys2Proof.Machine

/-- One step: fetch, decode, execute; enabled only while `status` is RUNNING (R90, R91). -/
def step (s : State) : Host.Outcome State Fault Refusal :=
  match s.status with
  | .ready => .fault .noStepWhileReady
  | .halted => .fault .noStepAfterHalt
  | .faulted => .fault .noStepAfterFault
  | .running =>
    match fetch s with
    | .go i t => retire (exec i t)
    | .trap c info t => .next (takeFault c info s.ip t)

/-- Where `withFetchWord` places an instruction: at `ip`, or at 0 if three words at `ip` would not fit into an
instruction memory. -/
def State.fetchPlace (s : State) : Nat :=
  if 0 ≤ s.ip.toInt ∧ s.ip.toInt + 3 < 2 ^ (wordBits - 1) then s.ip.toInt.toNat else 0

/-- `s` with one instruction's bits in the three words at `ip`, `ICOUNT` large enough to hold them, and the run started,
so that the next step runs it. It stands for the host's load and `run()` (R190, R192). Log entry 8. -/
def State.withFetchWord (s : State) (nbits w : Nat) : State :=
  let p := s.fetchPlace
  let ws := tableWords nbits w
  let m := ((s.imem.write p (ws.getD 0 0)).write (p + 1) (ws.getD 1 0)).write (p + 2) (ws.getD 2 0)
  { s with
    imem := m
    ip := BitVec.ofNat wordBits p
    icount := if s.icount.toInt < p + 3 then BitVec.ofNat wordBits (p + 3) else s.icount
    status := .running }

end Sys2Proof.Machine
end

