-- ==== Sys2Proof/Machine/HostPort.lean ====
section
/-!
DEFINITION. What the host can do to the core while it is not running (spec/20_memory.md R63, spec/70_reset_and_hazards.md
R190, R192, spec/60_exceptions.md R181). None of these is a step of the core.
-/

namespace Sys2Proof.Machine

/-- Reset, the source's "Construct": every piece of state at its reset value, the program and its length, the entry and
the number of globals latched, no input checked (R190, R38). It leaves any state, discarding outputs and fault registers.
Log entries 5, 8. -/
def construct (m : LoadImage) (s : State) : State :=
  { State.reset with
    ip := m.entry
    imem := Memory.ofWords 0 m.program
    icount := BitVec.ofNat wordBits m.program.length
    entry := m.entry
    gcount := m.gcount
    resetCount := s.resetCount + 1 }

/-- The host's `run()`: READY becomes RUNNING; no effect in any other state (R192). -/
def runRequest (s : State) : State := if s.status = .ready then { s with status := .running } else s

/-- The host sets `trace_en` between reset and `run()` (R33, R192). Nothing is given at any other time. Log entry 15. -/
def setTraceEn (b : Bool) (s : State) : Option State :=
  if s.status = .ready then some { s with traceEn := b } else none

/-- The host may read state when the core is not running (R57, R63, decision D19). Log entry 16. -/
def hostMayRead (s : State) : Bool := s.status != .running

/-- The host's read-back of all state (R63, decision D19): what it is given, where it may read. It changes nothing. -/
def readBack (s : State) : Option State := if hostMayRead s then some s else none

/-- The core has stopped: HALTED or FAULTED (R181). -/
def hasStopped (s : State) : Bool := s.status == .halted || s.status == .faulted

/-- `status` as its 2 bits (R30). -/
def readStatus (s : State) : BitVec 2 :=
  match s.status with
  | .ready => 0
  | .running => 1
  | .halted => 2
  | .faulted => 3

/-- A cause's code (R161). -/
def causeCode : Cause → BitVec 4
  | .noFault => 0
  | .ipOutOfBounds => 1
  | .unknownOpcode => 2
  | .operandOutOfBounds => 3
  | .globalIndexOutOfBounds => 4
  | .stackOverflow => 5
  | .stackUnderflow => 6
  | .stackIndexOutOfBounds => 7
  | .spOutOfRange => 8

/-- The class of a cause (R160, R161). -/
def faultClassOf : Cause → Option FaultClass
  | .noFault => none
  | .ipOutOfBounds | .unknownOpcode | .operandOutOfBounds | .globalIndexOutOfBounds => some .malformedProgram
  | .stackOverflow | .stackUnderflow | .stackIndexOutOfBounds | .spOutOfRange => some .stackFault

/-- `cause` as its 4 bits (R31). -/
def readCause (s : State) : BitVec 4 := causeCode s.cause

/-- The host's request for a code dump after a stop (R177, R181); it changes nothing. -/
def requestCodeDump (s : State) : Option TraceRecord := if hasStopped s then some (codeDump s) else none

/-- The host's request for a data dump after a stop (R177, R181); it changes nothing. -/
def requestDataDump (s : State) : Option TraceRecord := if hasStopped s then some (dataDump s) else none

end Sys2Proof.Machine
end

