-- ==== Sys2Proof/Safety.lean ====
section
/-!
DEFINITION. What counts as a run that goes well, in the terms claims use: the end of a run
(spec/60_exceptions.md R172, spec/40_pipeline.md R107), the invariant of every state a run reaches, and the architectural view
of a state, which tracing cannot change (R179).
-/

namespace Sys2Proof.Machine

/-- The core repeats its step while it is RUNNING (R107), at most `fuel` times. -/
def runFor : Nat → State → State
  | 0, s => s
  | fuel + 1, s =>
    match step s with
    | .next t => runFor fuel t
    | .fault _ => s
    | .refused _ => s

/-- The run completed: it reached HALT (R172). -/
def State.completed (s : State) : Bool := s.status == .halted

/-- The stack depth, `sp + 1` (R12). -/
def State.depth (s : State) : Int := s.sp.toInt + 1

/-- `sp` is in its legal range (R23). -/
abbrev State.spInRange (s : State) : Prop := -1 ≤ s.sp.toInt ∧ s.sp.toInt < stackCapacity

/-- The fault registers hold a report if and only if the core is FAULTED (R30, R31, R32). -/
abbrev State.faultReportOk (s : State) : Prop :=
  (s.cause ≠ .noFault ↔ s.status = .faulted) ∧ (s.faultIp.isSome ↔ s.status = .faulted) ∧
    (s.faultInfo.isSome ↔ s.status = .faulted)

/-- What holds of every state a run reaches: `sp` in range (R23), memories in canonical form and listing only indices
that exist (R25, R26), the fault report present exactly when FAULTED, no trace while tracing is off (R36). -/
abbrev State.Inv (s : State) : Prop :=
  s.spInRange ∧ s.memoriesWf ∧ s.stack.below stackCapacity ∧ s.globals.below s.gcount.toInt.toNat ∧
    s.faultReportOk ∧ (s.traceEn = false → s.trace = [])

/-- The event is a word of the output port. -/
def Event.isOutput : Event → Bool
  | .output _ => true
  | .record _ => false

/-- The architectural view: tracing off and no trace record kept (R179). -/
def State.untraced (s : State) : State := { s with traceEn := false, events := s.events.filter Event.isOutput }

/-- A change of the state carried through an outcome. -/
def mapNext (f : State → State) : Outcome → Outcome
  | .next s => .next (f s)
  | .fault r => .fault r
  | .refused r => .refused r

end Sys2Proof.Machine
end

