-- ==== Sys2Proof/Certificates/Slice0/Obligations.lean ====
section
/-!
DEFINITION. The statements for the provers, taken from the numbered rules of spec/. `exec` is given the state of the
execute phase: `ip` is already past the instruction's last word (spec/40_pipeline.md R97), so the index of its opcode
word is `ip - (1 + arity)`. Words popped or stored are named with the model's own reads, which no unspecified value
enters except through a slot that nothing has written (spec/10_state.md R25, log entry 5).
-/

namespace Sys2Proof.Claims

open Sys2Proof.Machine

/-- The top word of the stack. -/
def top (s : State) : Word := stackRead s s.sp.toInt.toNat

/-- The word below the top. -/
def second (s : State) : Word := stackRead s (s.sp.toInt - 1).toNat

/-- `exec i s` raises the fault `c` with `info` and leaves the partial state `t` and the fault registers; the fault is
reported at the instruction's opcode word (spec/60_exceptions.md R162). -/
def Faults (i : Instr) (s : State) (c : Cause) (info : Word) (t : State) : Prop :=
  exec i s = .next { t with
    status := .faulted, cause := c, faultInfo := some info, faultIp := some (s.ip - BitVec.ofNat wordBits i.length) }

/-- The five ALU instructions with their opcode numbers and the word each pushes for left operand `a` and right operand
`b` (spec/41_arith.md R110 to R114). -/
def aluTable : List (Instr × Word × (Word → Word → Word)) :=
  [(.iadd, 1, fun a b => wrap (a.toInt + b.toInt)),
   (.isub, 2, fun a b => wrap (a.toInt - b.toInt)),
   (.imul, 3, fun a b => wrap (a.toInt * b.toInt)),
   (.ilt, 4, fun a b => if a.toInt < b.toInt then 1 else 0),
   (.ieq, 5, fun a b => if a = b then 1 else 0)]

/-- The exact integer result of the three arithmetic instructions (spec/41_arith.md R115). -/
def exactTable : List (Instr × (Int → Int → Int)) :=
  [(.iadd, fun a b => a + b), (.isub, fun a b => a - b), (.imul, fun a b => a * b)]

/-- The slot of `Stack` that an instruction storing one word stores to, computed in the state its meaning computes it in;
none for the other instructions. -/
def storedSlot (i : Instr) (s : State) : Option Nat :=
  match i with
  | .iadd | .isub | .imul | .ilt | .ieq => some (s.sp.toInt - 1).toNat
  | .iconst _ | .load _ | .gload _ => some (s.sp.toInt + 1).toNat
  | .store off => some (frameIndex off s).toNat
  | .ret => some (s.fp.toInt - 3 - (stackRead s (s.fp.toInt - 2).toNat).toInt + 1).toNat
  | .br _ | .brt _ | .brf _ | .gstore _ | .print | .pop | .halt | .call _ _ | .init => none

/-- Instructions that store nothing into `Stack`. -/
def storesNoSlot : Instr → Bool
  | .br _ | .brt _ | .brf _ | .gstore _ | .print | .pop | .halt => true
  | .iadd | .isub | .imul | .ilt | .ieq | .iconst _ | .load _ | .store _ | .gload _ | .call _ _ | .ret | .init => false

/-- The execute-phase causes each instruction can raise (spec/60_exceptions.md R161, the list below the table, less
codes 1 to 3, which are raised before the execute phase). -/
def mayRaise : Instr → List Cause
  | .iadd | .isub | .imul | .ilt | .ieq | .brt _ | .brf _ | .print | .pop => [.stackUnderflow]
  | .br _ | .halt => []
  | .iconst _ | .call _ _ => [.stackOverflow]
  | .load _ => [.stackIndexOutOfBounds, .stackOverflow]
  | .store _ => [.stackUnderflow, .stackIndexOutOfBounds]
  | .gload _ => [.globalIndexOutOfBounds, .stackOverflow]
  | .gstore _ => [.stackUnderflow, .globalIndexOutOfBounds]
  | .ret => [.stackUnderflow, .spOutOfRange, .stackOverflow]
  | .init => [.stackUnderflow, .stackIndexOutOfBounds, .spOutOfRange]

/-- The cause codes of spec/60_exceptions.md R161. -/
def causeTable : List (Cause × Nat) :=
  [(.ipOutOfBounds, 1), (.unknownOpcode, 2), (.operandOutOfBounds, 3), (.globalIndexOutOfBounds, 4),
   (.stackOverflow, 5), (.stackUnderflow, 6), (.stackIndexOutOfBounds, 7), (.spOutOfRange, 8)]

/-- `t` is `s` after INIT's ascending copy of its first `k` words from `base` up to `fp` up: slots outside
`fp .. fp + k - 1` are as before; where the source range starts below `fp` the words repeat with period `fp - base`,
since each read sees the earlier writes; otherwise they are the words that were there before the copy
(spec/45_call.md R152). -/
def Copied (base : Int) (k : Nat) (s t : State) : Prop :=
  ∀ j : Nat,
    (s.fp.toInt ≤ j ∧ j < s.fp.toInt + k →
      stackRead t j =
        if base < s.fp.toInt then stackRead s (base + (j - s.fp.toInt) % (s.fp.toInt - base)).toNat
        else stackRead s (base + (j - s.fp.toInt)).toNat) ∧
    (¬(s.fp.toInt ≤ j ∧ j < s.fp.toInt + k) → stackRead t j = stackRead s j)

/-- Nothing but `ip`, `sp`, `fp` and the stack memory may differ. -/
def OnlyFrameDiffers (s t : State) : Prop :=
  t = { s with ip := t.ip, sp := t.sp, fp := t.fp, stack := t.stack }

/-- The straight-line instructions of the stack-depth law (spec/41_arith.md R119). -/
def straightLine : Instr → Bool
  | .iconst _ | .iadd | .isub | .imul | .pop => true
  | .ilt | .ieq | .br _ | .brt _ | .brf _ | .load _ | .store _ | .gload _ | .gstore _ | .print | .halt | .call _ _
  | .ret | .init => false

/-- ICONST counts as one push, the other straight-line instructions as one net pop (R119). -/
def depthChange (is : List Instr) : Int :=
  (is.map fun i => match i with
    | .iconst _ => (1 : Int)
    | _ => -1).sum

/-- The instructions executed one after the other, as long as none faults. -/
def execAll : List Instr → State → Option State
  | [], s => some s
  | i :: is, s =>
    match exec i s with
    | .next t => if t.status = .faulted then none else execAll is t
    | .fault _ => none
    | .refused _ => none

end Sys2Proof.Claims

open Sys2Proof Sys2Proof.Machine Sys2Proof.Claims

/-! ### Encoding -/

/-- R80: what the decoder reads from a list of words is an instruction whose words those are, and it reads every
instruction back from its own words; no other list decodes to it. -/
def Obligations.DecodeReadsExactlyTheEncodedWords : Prop :=
  ∀ (ws rest : List Word) (i : Instr), decode ws = .ok (i, rest) ↔ ws = encode i ++ rest

/-- The decode vectors V30-1 to V30-6 of spec/95_test_vectors.md, with one more word of each family, the operands of the
encodings written out by hand from R70 to R73. The opcode numbers are log entry 2. -/
def Obligations.SampleWordsDecodeAsTheSpecSays : Prop :=
  decode [1] = .ok (.iadd, []) ∧
  decode [9, 0xFFFFFFFF] = .ok (.iconst (-1), []) ∧
  decode [0xA, 0xFFFFFFFC] = .ok (.load (-4), []) ∧
  decode [0x11, 9, 2] = .ok (.call 9 2, []) ∧
  decode [6, 0xC] = .ok (.br 12, []) ∧
  decode [0x10] = .ok (.halt, []) ∧
  decode [0xD, 1, 0xE] = .ok (.gstore 1, [0xE]) ∧
  decode [0x13] = .ok (.init, [])

/-- R75: an opcode word is unknown exactly when it is 0, negative, or at least 20, and the decoder rejects it by name
whatever follows. -/
def Obligations.UnknownOpcodesAreExactlyTheWordsOutside1To19 : Prop :=
  ∀ (w : Word) (ws : List Word),
    decode (w :: ws) = .error (.unknownOpcode w) ↔ w.toInt ≤ 0 ∨ 20 ≤ w.toInt

/-- R73, R74 under the default map (log entry 2): the map is a bijection onto 1 to 19, and the table gives the arity
the source states for each mnemonic. -/
def Obligations.OpcodeMapIsABijectionWithTheStatedArities : Prop :=
  (∀ n : Nat, 1 ≤ n ∧ n ≤ 19 ↔ ∃ m, opcodeNumber m = n) ∧
  (∀ m m' : Mnemonic, opcodeNumber m = opcodeNumber m' → m = m') ∧
  (∀ m : Mnemonic, m.arity = if m = .call then 2
    else if m ∈ [.br, .brt, .brf, .iconst, .load, .store, .gload, .gstore] then 1 else 0)

/-! ### The step -/

/-- A step runs the decoded instruction: with the core RUNNING, when the words at `ip` decode to `i` and `i` is not HALT,
the step is `exec i` at the state with `TracePre` emitted and `ip` past the instruction's words, followed by
`TracePost` if the instruction did not fault (R91). HALT runs at once, with `ip` on it (R93). -/
def Obligations.StepRunsTheDecodedInstruction : Prop :=
  ∀ (s : State) (i : Instr) (rest : List Word),
    s.status = .running → decode (instructionWords s) = .ok (i, rest) →
    step s =
      if i = .halt then exec .halt s
      else retire (exec i
        { tracePre s.ip (opcodeWord i.mnemonic) s with ip := s.ip + BitVec.ofNat wordBits i.length })

/-- R92: an `ip` outside the instruction array at a fetch raises `IP_OUT_OF_BOUNDS`, reported at `ip`, and changes
nothing but the fault report; nothing is traced. That it is a fault, and a negative `ip` too, is the spec's decision
D6, D26 (log entry 13). -/
def Obligations.FetchOutsideTheProgramFaults : Prop :=
  ∀ s : State, s.status = .running → (s.ip.toInt < 0 ∨ s.icount.toInt ≤ s.ip.toInt) →
    step s = .next { s with
      status := .faulted, cause := .ipOutOfBounds, faultIp := some s.ip, faultInfo := some s.ip }

/-- R96: an opcode word outside 1 to 19 faults in decode with that word as the information; `ip` is already past it (R95),
the fault is reported at the word's index, and nothing else changes but the trace. Any other word has a mnemonic and an
arity in the table. -/
def Obligations.UnknownOpcodeFaultsPastTheOpcodeWord : Prop :=
  (∀ (s : State) (w : Word), s.status = .running → imemAt s s.ip.toInt = some w → (w.toInt ≤ 0 ∨ 20 ≤ w.toInt) →
    step s = .next { tracePre s.ip w s with
      ip := s.ip + 1, status := .faulted, cause := .unknownOpcode, faultIp := some s.ip, faultInfo := some w }) ∧
  ∀ w : Word, 1 ≤ w.toInt → w.toInt ≤ 19 →
    ∃ m, opcodeWord m = w ∧ instructionSetTable w = some (m.text, m.arity)

/-- R97, R82: if the operand word `k` (counted from 0) of the instruction at `ip` is the first that lies outside the
instruction array, the step faults with the index of that word, `ip` standing there, and no execute action is done.
That operands come before every action is decision D9 (log entry 13). -/
def Obligations.MissingOperandFaultsBeforeExecute : Prop :=
  ∀ (s : State) (m : Mnemonic) (k : Nat),
    s.status = .running → imemAt s s.ip.toInt = some (opcodeWord m) → k < m.arity →
    s.ip.toInt + 1 + k = s.icount.toInt →
    step s = .next { tracePre s.ip (opcodeWord m) s with
      ip := s.icount, status := .faulted, cause := .operandOutOfBounds, faultIp := some s.ip,
      faultInfo := some s.icount }

/-- R90: a step is enabled if and only if `status = RUNNING`. -/
def Obligations.StepIsEnabledExactlyWhileRunning : Prop :=
  ∀ s : State, (∃ t, step s = .next t) ↔ s.status = .running

/-- R172: a step leaves the core RUNNING, HALTED or FAULTED; it leaves HALTED exactly when HALT's opcode word is at `ip`,
and then `cause` is 0, given that the fault registers were consistent (an invariant, EveryStepKeepsTheInvariant). -/
def Obligations.OnlyAFetchedHaltHalts : Prop :=
  ∀ s t : State, step s = .next t →
    (t.status = .running ∨ t.status = .halted ∨ t.status = .faulted) ∧
    (t.status = .halted ↔ imemAt s s.ip.toInt = some (opcodeWord .halt)) ∧
    (s.faultReportOk → t.status = .halted → readCause t = 0)

/-- R162, R161: taking a fault writes the four fault registers and nothing else, the cause reads as its code, and the core
has no further step. The registers and the codes are decision D7 (log entry 13); that a step asked for nevertheless answers
the named fault of the step function is the model's own (log entry 6). -/
def Obligations.TakingAFaultWritesOnlyTheReport : Prop :=
  ∀ (c : Cause) (info cur : Word) (s : State),
    takeFault c info cur s = { s with
      cause := c, faultInfo := some info, faultIp := some (if c = .ipOutOfBounds then s.ip else cur),
      status := .faulted } ∧
    (∀ n, (c, n) ∈ causeTable → (readCause (takeFault c info cur s)).toNat = n) ∧
    step (takeFault c info cur s) = .fault .noStepAfterFault

/-- R161, R162, R165: a step that ends in a fault reports the index of the instruction it was executing, which is the
`ip` it started at, and one of the causes 1 to 8. The codes are decision D7 (log entry 13). -/
def Obligations.FaultReportIdentifiesTheInstruction : Prop :=
  ∀ s t : State, step s = .next t → t.status = .faulted →
    t.faultIp = some s.ip ∧ t.faultInfo.isSome ∧ 1 ≤ (readCause t).toNat ∧ (readCause t).toNat ≤ 8

/-- R20, R34, R60, R33: no step changes the instruction memory, the latched configuration, the trace enable or the count of
resets. -/
def Obligations.StepKeepsProgramAndConfiguration : Prop :=
  ∀ s t : State, step s = .next t →
    t.imem = s.imem ∧ t.icount = s.icount ∧ t.entry = s.entry ∧ t.gcount = s.gcount ∧ t.traceEn = s.traceEn ∧
      t.resetCount = s.resetCount

/-- R35, R62: a step never takes a word out of `out`, and adds one only when PRINT's opcode word is at `ip`: the top
word of the stack. That the port refuses nothing is decision D19 (log entry 13). -/
def Obligations.OutputGrowsOnlyByPrint : Prop :=
  ∀ s t : State, step s = .next t →
    t.out = s.out ∨ (imemAt s s.ip.toInt = some (opcodeWord .print) ∧ t.out = s.out ++ [top s])

/-! ### Reset and the host -/

/-- R38, R190: what reset leaves, for every image the host presents whose length fits a word (R8), in whatever state the
core was. The stack lists no written slot: its contents are unspecified (R25, decision D13), a free value for each slot
(log entries 5, 10). These are the model's choices or the spec's own decisions: `fault_ip` and `fault_info` absent (log entry
9), `trace_en` off (decision D18) and the registers `status` and `cause` with their values (decision D7; both log entry 13),
the length as `ICOUNT` (log entry 8). -/
def Obligations.ResetLeavesTheStatedValues : Prop :=
  ∀ (m : LoadImage) (s : State), m.program.length < 2 ^ 31 →
    (construct m s).ip = m.entry ∧ (construct m s).sp.toInt = -1 ∧ (construct m s).fp.toInt = -1 ∧
    (construct m s).stack = [] ∧
    (∀ g, globalRead (construct m s) g = 0) ∧
    (∀ k : Nat, imemAt (construct m s) k = m.program[k]?) ∧
    (construct m s).icount.toInt = m.program.length ∧ (construct m s).entry = m.entry ∧
    (construct m s).gcount = m.gcount ∧
    readStatus (construct m s) = 0 ∧ readCause (construct m s) = 0 ∧
    (construct m s).faultIp = none ∧ (construct m s).faultInfo = none ∧
    (construct m s).traceEn = false ∧ (construct m s).out = [] ∧ (construct m s).trace = []

/-- R192: `run()` turns READY into RUNNING and changes nothing else, and has no effect in any other state. The second
half is decision D20 (log entry 13). -/
def Obligations.RunRequestStartsOnlyFromReady : Prop :=
  ∀ s : State, (s.status = .ready → runRequest s = { s with status := .running }) ∧
    (s.status ≠ .ready → runRequest s = s)

/-- R177, R181: the dumps the host may ask for after a stop list, in ascending index order, exactly the slots whose word is
not negative: `Globals` in the data dump, `IMem` in the code dump. The stack dump of R175 lists every live slot. -/
def Obligations.DumpsListTheirSlotsInOrder : Prop :=
  ∀ s : State,
    (s.status = .halted ∨ s.status = .faulted → ∃ ds cs : List (Nat × Word),
      requestDataDump s = some (.dataDump ds) ∧ requestCodeDump s = some (.codeDump cs) ∧
      ds.Pairwise (fun a b => a.1 < b.1) ∧ cs.Pairwise (fun a b => a.1 < b.1) ∧
      (∀ g v, (g, v) ∈ ds ↔ (g : Int) < s.gcount.toInt ∧ v = globalRead s g ∧ 0 ≤ v.toInt) ∧
      (∀ k v, (k, v) ∈ cs ↔ imemAt s k = some v ∧ 0 ≤ v.toInt)) ∧
    (liveStack s).Pairwise (fun a b => a.1 < b.1) ∧
    (∀ j v, (j, v) ∈ liveStack s ↔ (j : Int) ≤ s.sp.toInt ∧ v = stackRead s j)

/-- The invariant holds after every reset, the first one included. -/
def Obligations.InvariantHoldsAfterReset : Prop :=
  State.reset.Inv ∧ ∀ (m : LoadImage) (s : State), (construct m s).Inv

/-- Every step keeps the invariant: `sp` in its legal range (R23), the memories in canonical form and inside their bounds,
the fault report present exactly when FAULTED (R32), no trace while tracing is off (R36). -/
def Obligations.EveryStepKeepsTheInvariant : Prop :=
  ∀ s t : State, s.Inv → step s = .next t → t.Inv

/-- R179: tracing changes nothing but the trace. The step of the state with tracing off is the step of the state with
it as it is, seen without the trace. At the edges this rests on decision D18 (log entry 13). -/
def Obligations.TracingHasNoArchitecturalEffect : Prop :=
  ∀ s : State, step s.untraced = mapNext State.untraced (step s)

/-- R174, R175, R178, R36: the events of a step that does not halt: with tracing on, the instruction's disassembly,
then the word it printed, then the stack dump, the dump only if it did not fault; with tracing off, only the printed
word. That one sequence holds both is log entry 11. -/
def Obligations.TraceRecordsSurroundTheOutput : Prop :=
  ∀ (s t : State) (i : Instr) (rest : List Word),
    s.status = .running → decode (instructionWords s) = .ok (i, rest) → i ≠ .halt → step s = .next t →
    t.events = s.events
      ++ (if s.traceEn then [.record (.disasm s.ip (opcodeWord i.mnemonic) i.operands)] else [])
      ++ (if i = .print ∧ t.status = .running then [.output (top s)] else [])
      ++ (if s.traceEn ∧ t.status = .running then [.record (.stackDump (liveStack t))] else [])

/-! ### All instructions -/

/-- Every instruction answers a next state in every state: none is refused. The spec says that HALT and a fault stop the
core (R142, R162); that such a stop is a next state, with status HALTED or FAULTED, is the model's choice (log entry 7). -/
def Obligations.EveryInstructionAnswersANextState : Prop :=
  ∀ (i : Instr) (s : State), ∃ t, exec i s = .next t

/-- R161: an instruction that faults in the execute phase, with `sp` in its legal range (R23; every step keeps it
there, EveryStepKeepsTheInvariant), raises one of the causes the spec lists for it, and reports its own opcode word.
The causes are decision D7 (log entry 13). -/
def Obligations.InstructionsRaiseOnlyTheirListedCauses : Prop :=
  ∀ (i : Instr) (s t : State), s.spInRange → s.status = .running → exec i s = .next t → t.status = .faulted →
    t.cause ∈ mayRaise i ∧ t.faultIp = some (s.ip - BitVec.ofNat wordBits i.length)

/-- R24: only CALL and RET write `fp`. -/
def Obligations.OnlyCallAndRetWriteTheFramePointer : Prop :=
  ∀ (i : Instr) (s t : State), exec i s = .next t → (∀ a n, i ≠ .call a n) → i ≠ .ret → t.fp = s.fp

/-- The frame of every instruction on what it does not address: the instruction memory, the configuration and, where it
does not fault, the fault registers are unchanged; `out` changes only by PRINT and the trace only by HALT; `status`
only by HALT and by a fault (R20, R31, R32, R34, R35, R60). -/
def Obligations.SpecialRegistersFrame : Prop :=
  ∀ (i : Instr) (s t : State), s.status = .running → exec i s = .next t →
    t.imem = s.imem ∧ t.icount = s.icount ∧ t.entry = s.entry ∧ t.gcount = s.gcount ∧ t.traceEn = s.traceEn ∧
    t.resetCount = s.resetCount ∧
    (t.status ≠ .faulted → t.cause = s.cause ∧ t.faultIp = s.faultIp ∧ t.faultInfo = s.faultInfo) ∧
    (i ≠ .print → t.out = s.out) ∧ (i ≠ .halt → t.trace = s.trace) ∧
    (t.status = .running ∨ t.status = .faulted ∨ (i = .halt ∧ t.status = .halted))

/-- Frame: BR, BRT, BRF, GSTORE, PRINT, POP and HALT store nothing into `Stack`: every slot reads as before. BR and HALT
leave `sp` too (R23). -/
def Obligations.FormsThatStoreNoSlotKeepTheStack : Prop :=
  ∀ (i : Instr) (s t : State), storesNoSlot i = true → exec i s = .next t →
    (∀ j, stackRead t j = stackRead s j) ∧
    (∀ a, i = .br a ∨ i = .halt → t.sp = s.sp)

/-- Frame: IADD, ISUB, IMUL, ILT, IEQ, ICONST, LOAD, STORE, GLOAD and RET store at most the one slot of `storedSlot`: every
other slot reads as before, whether the instruction completed or faulted. -/
def Obligations.SingleStoresTouchOneSlot : Prop :=
  ∀ (i : Instr) (s t : State) (a : Nat), storedSlot i s = some a → exec i s = .next t →
    ∀ j, j ≠ a → stackRead t j = stackRead s j

/-- Frame: CALL stores at most the three slots `sp + 1`, `sp + 2`, `sp + 3`. -/
def Obligations.CallTouchesThreeSlots : Prop :=
  ∀ (addr nargs : Word) (s t : State), -1 ≤ s.sp.toInt → exec (.call addr nargs) s = .next t →
    ∀ j : Nat, ¬(s.sp.toInt + 1 ≤ j ∧ j ≤ s.sp.toInt + 3) → stackRead t j = stackRead s j

/-- Frame: INIT stores at most the slots `fp .. fp + nargs - 1`, with `nargs` the top word. -/
def Obligations.InitTouchesOnlyTheArgumentSlots : Prop :=
  ∀ s t : State, exec .init s = .next t →
    ∀ j : Nat, ¬(s.fp.toInt ≤ j ∧ j < s.fp.toInt + (top s).toInt) → stackRead t j = stackRead s j

/-- Frame: every instruction but GSTORE leaves every global slot, and `GSTORE off` leaves every slot but `off` (R26). -/
def Obligations.OnlyGstoreWritesGlobals : Prop :=
  ∀ (i : Instr) (s t : State) (g : Nat), exec i s = .next t →
    (∀ off, i = .gstore off → g ≠ off.toInt.toNat) → globalRead t g = globalRead s g

/-! ### Arithmetic and comparison -/

/-- R110 to R114, R116: encoding, result and faults of the five ALU instructions. The word popped first is the right
operand; the dead slot keeps it; `ip` does not change. The opcode numbers are log entry 2, wrapping is log entry 3. -/
def Obligations.AluInstructionsReplaceTheTopTwoWords : Prop :=
  ∀ (i : Instr) (n : Word) (f : Word → Word → Word), (i, n, f) ∈ aluTable → encode i = [n] ∧ ∀ s : State,
    (1 ≤ s.sp.toInt → s.sp.toInt < 1000 →
      exec i s = .next { s with
        sp := s.sp - 1, stack := s.stack.insert (s.sp.toInt - 1).toNat (f (second s) (top s)) }) ∧
    (s.sp.toInt = 0 → Faults i s .stackUnderflow (-1) { s with sp := -1 }) ∧
    (s.sp.toInt < 0 → Faults i s .stackUnderflow s.sp s)

/-- R115: when the exact integer result of IADD, ISUB or IMUL lies in the signed range, that integer is what is left on top
of the stack. -/
def Obligations.ArithmeticIsExactWhenTheResultFits : Prop :=
  ∀ (i : Instr) (op : Int → Int → Int), (i, op) ∈ exactTable → ∀ s : State,
    1 ≤ s.sp.toInt → s.sp.toInt < 1000 →
    -2147483648 ≤ op (second s).toInt (top s).toInt → op (second s).toInt (top s).toInt ≤ 2147483647 →
    ∃ t, exec i s = .next t ∧ (top t).toInt = op (second s).toInt (top s).toInt ∧ t.sp.toInt = s.sp.toInt - 1

/-- R117: ILT and IEQ leave exactly 0 or 1 on top, 1 exactly when the comparison of the deeper word with the top word
holds; 1 and 0 are the words BRT and BRF branch on. -/
def Obligations.ComparisonsPushExactlyZeroOrOne : Prop :=
  ∀ s : State, 1 ≤ s.sp.toInt → s.sp.toInt < 1000 →
    (∃ t, exec .ilt s = .next t ∧ (top t = 0 ∨ top t = 1) ∧ (top t = 1 ↔ (second s).toInt < (top s).toInt)) ∧
    (∃ t, exec .ieq s = .next t ∧ (top t = 0 ∨ top t = 1) ∧ (top t = 1 ↔ second s = top s)) ∧
    ∀ addr : Word,
      (top s = 1 → exec (.brt addr) s = .next { s with sp := s.sp - 1, ip := addr }) ∧
      (top s = 0 → exec (.brf addr) s = .next { s with sp := s.sp - 1, ip := addr })

/-- R119: after any sequence of ICONST, IADD, ISUB, IMUL and POP that does not fault, the depth has changed by the number of
ICONST less the number of the others. -/
def Obligations.StraightLineDepthLaw : Prop :=
  ∀ (is : List Instr) (s t : State), (∀ i ∈ is, straightLine i = true) → s.spInRange →
    execAll is s = some t → t.depth = s.depth + depthChange is

/-! ### Branches -/

/-- R120: BR sets `ip` to its operand word, whatever it is, and changes nothing else. The opcode number is log entry
2. -/
def Obligations.BrSetsTheInstructionPointer : Prop :=
  ∀ (addr : Word) (s : State), encode (.br addr) = [6, addr] ∧ exec (.br addr) s = .next { s with ip := addr }

/-- R125: with 1 on top BRT jumps and BRF does not, with 0 on top BRF jumps and BRT does not, and the word is popped in
every case. -/
def Obligations.BooleanBranchesPopAndJump : Prop :=
  ∀ (addr : Word) (s : State), 0 ≤ s.sp.toInt →
    (top s = 1 → exec (.brt addr) s = .next { s with sp := s.sp - 1, ip := addr } ∧
      exec (.brf addr) s = .next { s with sp := s.sp - 1 }) ∧
    (top s = 0 → exec (.brf addr) s = .next { s with sp := s.sp - 1, ip := addr } ∧
      exec (.brt addr) s = .next { s with sp := s.sp - 1 })

/-- R121, R122, R123, R125: BRT branches exactly on 1, BRF exactly on 0, any other word falls through both, and the
word is popped in every case; on the empty stack they fault with no branch. The opcode numbers are log entry 2; a word
other than 0 and 1 is decision D14 (log entry 13). -/
def Obligations.ConditionalBranchesPopAndTestTheWholeWord : Prop :=
  ∀ (i : Instr) (addr n v : Word), (i = .brt addr ∧ n = 7 ∧ v = 1) ∨ (i = .brf addr ∧ n = 8 ∧ v = 0) →
    encode i = [n, addr] ∧ ∀ s : State,
      (0 ≤ s.sp.toInt →
        exec i s = .next { s with sp := s.sp - 1, ip := if top s = v then addr else s.ip }) ∧
      (s.sp.toInt < 0 → Faults i s .stackUnderflow s.sp s)

/-! ### Constants, locals, globals -/

/-- R130: ICONST pushes its operand word as it is; on a full stack it faults. The opcode number is log entry 2; where
the push faults is decision D12 (log entry 13). -/
def Obligations.IconstPushesItsOperand : Prop :=
  ∀ (k : Word) (s : State), encode (.iconst k) = [9, k] ∧
    (-1 ≤ s.sp.toInt → s.sp.toInt < 999 →
      exec (.iconst k) s = .next { s with sp := s.sp + 1, stack := s.stack.insert (s.sp.toInt + 1).toNat k }) ∧
    (999 ≤ s.sp.toInt → Faults (.iconst k) s .stackOverflow s.sp s)

/-- R131: LOAD checks the index `fp + off` formed in Z, reads the slot, then pushes it. The opcode number is log entry
2; the bounds are decision D10 (log entry 13); a slot nothing has written gives its free value (log entry 5). -/
def Obligations.LoadPushesTheFrameSlot : Prop :=
  ∀ (off : Word) (s : State), encode (.load off) = [10, off] ∧
    (s.fp.toInt + off.toInt < 0 ∨ 1000 ≤ s.fp.toInt + off.toInt →
      Faults (.load off) s .stackIndexOutOfBounds (wrap (s.fp.toInt + off.toInt)) s) ∧
    (0 ≤ s.fp.toInt + off.toInt → s.fp.toInt + off.toInt < 1000 →
      (-1 ≤ s.sp.toInt → s.sp.toInt < 999 →
        exec (.load off) s = .next { s with
          sp := s.sp + 1
          stack := s.stack.insert (s.sp.toInt + 1).toNat (stackRead s (s.fp.toInt + off.toInt).toNat) }) ∧
      (999 ≤ s.sp.toInt → Faults (.load off) s .stackOverflow s.sp s))

/-- R132: STORE pops, then checks the index, then writes. The opcode number is log entry 2; the order is decision D8
(log entry 13). -/
def Obligations.StorePopsIntoTheFrameSlot : Prop :=
  ∀ (off : Word) (s : State), encode (.store off) = [11, off] ∧
    (s.sp.toInt < 0 → Faults (.store off) s .stackUnderflow s.sp s) ∧
    (0 ≤ s.sp.toInt →
      (s.fp.toInt + off.toInt < 0 ∨ 1000 ≤ s.fp.toInt + off.toInt →
        Faults (.store off) s .stackIndexOutOfBounds (wrap (s.fp.toInt + off.toInt)) { s with sp := s.sp - 1 }) ∧
      (0 ≤ s.fp.toInt + off.toInt → s.fp.toInt + off.toInt < 1000 →
        exec (.store off) s = .next { s with
          sp := s.sp - 1, stack := s.stack.insert (s.fp.toInt + off.toInt).toNat (top s) }))

/-- R133: GLOAD checks the index, then pushes the global slot; the index check comes before the push. The opcode
number is log entry 2; the fault is decision D11 (log entry 13). -/
def Obligations.GloadPushesTheGlobalSlot : Prop :=
  ∀ (off : Word) (s : State), encode (.gload off) = [12, off] ∧
    (off.toInt < 0 ∨ s.gcount.toInt ≤ off.toInt → Faults (.gload off) s .globalIndexOutOfBounds off s) ∧
    (0 ≤ off.toInt → off.toInt < s.gcount.toInt →
      (-1 ≤ s.sp.toInt → s.sp.toInt < 999 →
        exec (.gload off) s = .next { s with
          sp := s.sp + 1, stack := s.stack.insert (s.sp.toInt + 1).toNat (globalRead s off.toInt.toNat) }) ∧
      (999 ≤ s.sp.toInt → Faults (.gload off) s .stackOverflow s.sp s))

/-- R134: GSTORE pops, then checks the index, then writes the global slot. The opcode number is log entry 2; order and
fault are decisions D8, D11 (log entry 13). -/
def Obligations.GstorePopsIntoTheGlobalSlot : Prop :=
  ∀ (off : Word) (s : State), encode (.gstore off) = [13, off] ∧
    (s.sp.toInt < 0 → Faults (.gstore off) s .stackUnderflow s.sp s) ∧
    (0 ≤ s.sp.toInt →
      (off.toInt < 0 ∨ s.gcount.toInt ≤ off.toInt →
        Faults (.gstore off) s .globalIndexOutOfBounds off { s with sp := s.sp - 1 }) ∧
      (0 ≤ off.toInt → off.toInt < s.gcount.toInt →
        ∃ t, exec (.gstore off) s = .next t ∧ globalRead t off.toInt.toNat = top s ∧
          t = { s with sp := s.sp - 1, globals := t.globals } ∧
          ∀ g, g ≠ off.toInt.toNat → globalRead t g = globalRead s g))

/-! ### Output, discard, stop -/

/-- R140: PRINT pops a word and appends it to `out`; on the empty stack it faults and nothing is output. The opcode
number is log entry 2; that the port refuses nothing and that the word itself goes out are decisions D19 and D24 (log
entry 13). -/
def Obligations.PrintSendsTheTopWord : Prop :=
  ∀ s : State, encode .print = [14] ∧
    (0 ≤ s.sp.toInt → ∃ t, exec .print s = .next t ∧ t.out = s.out ++ [top s] ∧ t.trace = s.trace ∧
      t = { s with sp := s.sp - 1, events := t.events }) ∧
    (s.sp.toInt < 0 → Faults .print s .stackUnderflow s.sp s)

/-- R141: POP discards the top word and nothing else changes; on the empty stack it faults. The opcode number is log
entry 2. -/
def Obligations.PopDiscardsTheTopWord : Prop :=
  ∀ s : State, encode .pop = [15] ∧
    (0 ≤ s.sp.toInt → exec .pop s = .next { s with sp := s.sp - 1 }) ∧
    (s.sp.toInt < 0 → Faults .pop s .stackUnderflow s.sp s)

/-- R93, R176 (and R142 but for the number of the opcode): a step that finds HALT's word at `ip` sets `status` to HALTED and,
with tracing on, emits the final disassembly, stack dump and data dump, and no other record; nothing else changes, `ip`
included. -/
def Obligations.HaltStopsAtItsOwnWord : Prop :=
  ∀ s : State, s.status = .running → imemAt s s.ip.toInt = some (opcodeWord .halt) →
    step s = exec .halt s ∧ exec .halt s = .next { s with
      status := .halted
      events := s.events ++ if s.traceEn then
        [.record (.disasm s.ip (opcodeWord .halt) []), .record (.stackDump (liveStack s)), .record (dataDump s)]
        else [] }

/-! ### Calls -/

/-- R150: CALL pushes the argument count, `fp` and the return address, points `fp` at the return address and jumps;
with fewer than three free slots it faults at the push that finds none, keeping the earlier pushes. The opcode number
is log entry 2; where a push faults is decision D12 (log entry 13). -/
def Obligations.CallPushesTheLinkageAndJumps : Prop :=
  ∀ (addr nargs : Word) (s : State), encode (.call addr nargs) = [17, addr, nargs] ∧ (-1 ≤ s.sp.toInt →
    (s.sp.toInt ≤ 996 → exec (.call addr nargs) s = .next { s with
      sp := s.sp + 3, fp := s.sp + 3, ip := addr
      stack := ((s.stack.insert (s.sp.toInt + 1).toNat nargs).insert (s.sp.toInt + 2).toNat s.fp).insert
        (s.sp.toInt + 3).toNat s.ip }) ∧
    (s.sp.toInt = 997 → Faults (.call addr nargs) s .stackOverflow 999
      { s with sp := 999, stack := (s.stack.insert 998 nargs).insert 999 s.fp }) ∧
    (s.sp.toInt = 998 → Faults (.call addr nargs) s .stackOverflow 999
      { s with sp := 999, stack := s.stack.insert 999 nargs }) ∧
    (999 ≤ s.sp.toInt → Faults (.call addr nargs) s .stackOverflow s.sp s))

/-- R151: RET pops the return value, takes the linkage through the old `fp`, drops the saved number of arguments and
pushes the return value. `n` is the saved count and `d` the stack pointer it asks for. The opcode number is log entry
2; a negative count and the checks of `sp` are decisions D17, D27 (log entry 13). -/
def Obligations.RetRestoresTheCaller : Prop :=
  encode .ret = [18] ∧ ∀ (s : State) (n d : Int), 0 ≤ s.sp.toInt → 2 ≤ s.fp.toInt → s.fp.toInt < 1000 →
    n = (stackRead s (s.fp.toInt - 2).toNat).toInt → d = s.fp.toInt - 3 - n →
    (-1 ≤ d → d < 999 → exec .ret s = .next { s with
      ip := stackRead s s.fp.toInt.toNat, fp := stackRead s (s.fp.toInt - 1).toNat, sp := wrap (d + 1)
      stack := s.stack.insert (d + 1).toNat (top s) }) ∧
    (d < -1 ∨ 1000 ≤ d → Faults .ret s .spOutOfRange (wrap d) { s with
      ip := stackRead s s.fp.toInt.toNat, fp := stackRead s (s.fp.toInt - 1).toNat, sp := s.fp - 3 }) ∧
    (d = 999 → Faults .ret s .stackOverflow 999 { s with
      ip := stackRead s s.fp.toInt.toNat, fp := stackRead s (s.fp.toInt - 1).toNat, sp := 999 })

/-- R151: where RET faults before it has read the whole linkage, and what it has done by then. The check of `fp` at
the assignment is decision D27 (log entry 13). -/
def Obligations.RetFaultsWithoutAWholeLinkage : Prop :=
  ∀ s : State,
    (s.sp.toInt < 0 → Faults .ret s .stackUnderflow s.sp s) ∧
    (0 ≤ s.sp.toInt →
      (s.fp.toInt < -1 ∨ 1000 ≤ s.fp.toInt → Faults .ret s .spOutOfRange s.fp { s with sp := s.sp - 1 }) ∧
      (s.fp.toInt = -1 → Faults .ret s .stackUnderflow (-1) { s with sp := -1 }) ∧
      (s.fp.toInt = 0 → Faults .ret s .stackUnderflow (-1) { s with sp := -1, ip := stackRead s 0 }) ∧
      (s.fp.toInt = 1 → Faults .ret s .stackUnderflow (-1)
        { s with sp := -1, ip := stackRead s 1, fp := stackRead s 0 }))

/-- R152 with a count above 0: INIT copies the `n` words on top of the stack to `fp` up, in ascending order, drops
them and jumps. The opcode number is log entry 2; which words and in which order is log entry 4. -/
def Obligations.InitCopiesTheArgumentsAndJumps : Prop :=
  encode .init = [19] ∧ ∀ s : State, 1 ≤ s.sp.toInt → s.sp.toInt < 1000 → 1 ≤ (top s).toInt →
    (top s).toInt ≤ s.sp.toInt - 1 → 0 ≤ s.fp.toInt → s.fp.toInt + (top s).toInt ≤ 1000 →
    ∃ t, exec .init s = .next t ∧ Copied (s.sp.toInt - 1 - (top s).toInt) (top s).toInt.toNat s t ∧
      t.sp.toInt = s.sp.toInt - 2 - (top s).toInt ∧ t.ip = second s ∧ t.fp = s.fp ∧ OnlyFrameDiffers s t

/-- R152 with a count of 0 or less: INIT copies nothing, moves `sp` by the count and jumps; it faults where that takes
`sp` past the stack memory. INIT as a whole is log entry 4. -/
def Obligations.InitWithoutArgumentsIsAnIndirectJump : Prop :=
  ∀ s : State, 1 ≤ s.sp.toInt → s.sp.toInt < 1000 → (top s).toInt ≤ 0 →
    (s.sp.toInt - 2 - (top s).toInt < 1000 →
      exec .init s = .next { s with sp := wrap (s.sp.toInt - 2 - (top s).toInt), ip := second s }) ∧
    (1000 ≤ s.sp.toInt - 2 - (top s).toInt →
      Faults .init s .spOutOfRange (wrap (s.sp.toInt - 2 - (top s).toInt)) { s with sp := s.sp - 2 })

/-- R152: where INIT faults. A missing count or address; a source below the stack, found before any copy; a
destination outside the stack memory, found at the first word or after the words that fit, whose copies stay. INIT as
a whole is log entry 4. -/
def Obligations.InitFaultsWhereAnIndexLeavesTheStack : Prop :=
  ∀ s : State, s.sp.toInt < 1000 →
    (s.sp.toInt < 0 → Faults .init s .stackUnderflow s.sp s) ∧
    (s.sp.toInt = 0 → Faults .init s .stackUnderflow (-1) { s with sp := -1 }) ∧
    (1 ≤ s.sp.toInt → 1 ≤ (top s).toInt →
      (s.sp.toInt - 1 < (top s).toInt →
        Faults .init s .stackIndexOutOfBounds (wrap (s.sp.toInt - 1 - (top s).toInt)) { s with sp := s.sp - 2 }) ∧
      ((top s).toInt ≤ s.sp.toInt - 1 → (s.fp.toInt < 0 ∨ 1000 ≤ s.fp.toInt) →
        Faults .init s .stackIndexOutOfBounds s.fp { s with sp := s.sp - 2 }) ∧
      ((top s).toInt ≤ s.sp.toInt - 1 → 0 ≤ s.fp.toInt → s.fp.toInt < 1000 → 1000 < s.fp.toInt + (top s).toInt →
        ∃ t, Faults .init s .stackIndexOutOfBounds 1000 t ∧
          Copied (s.sp.toInt - 1 - (top s).toInt) (1000 - s.fp.toInt).toNat s t ∧ t.sp = s.sp - 2 ∧
          t.ip = s.ip ∧ t.fp = s.fp ∧ OnlyFrameDiffers s t))

/-- R154: the call protocol. After CALL with `n` arguments on the stack, whatever the callee has done above its linkage,
with `fp` and the three linkage words as CALL left them and a word on top, RET leaves the depth before CALL less `n`
plus one, the caller's `fp`, the word after the CALL in `ip`, and the callee's top word on top. -/
def Obligations.CallThenRetRestoresTheCaller : Prop :=
  ∀ (s : State) (addr nargs : Word), -1 ≤ s.sp.toInt → s.sp.toInt ≤ 996 → 0 ≤ nargs.toInt → nargs.toInt ≤ s.depth →
    ∃ c, exec (.call addr nargs) s = .next c ∧ c.ip = addr ∧ ∀ t : State,
      t.fp = c.fp → c.sp.toInt < t.sp.toInt → t.sp.toInt < 1000 →
      (∀ j : Nat, c.fp.toInt - 2 ≤ j ∧ j ≤ c.fp.toInt → stackRead t j = stackRead c j) →
      ∃ u, exec .ret t = .next u ∧ u.depth = s.depth - nargs.toInt + 1 ∧ u.fp = s.fp ∧ u.ip = s.ip ∧
        top u = top t

/-! ### The host's reads -/

/-- R57, R63, R33: the host is given all state exactly when the core is not RUNNING, and sets `trace_en` exactly in READY,
changing nothing else. That reading takes READY in is decision D19, that `trace_en` is set in READY only is log entry 15,
and how the two points are read together is log entry 16. -/
def Obligations.HostReadsWheneverNotRunning : Prop :=
  ∀ (s : State) (b : Bool),
    readBack s = (if s.status = .running then none else some s) ∧
    setTraceEn b s = (if s.status = .ready then some { s with traceEn := b } else none)
end

