-- ==== Sys2Proof/Laws/Decode.lean ====
section
/-!
SUPPORT. The Instruction Set Table: the opcode map has one mnemonic for each of its numbers, and the shape of each
mnemonic is that of its instruction.
-/

namespace Sys2Proof

/-- The lookup finds the mnemonic of an opcode word (R71, R73). -/
@[simp] theorem ofOpcode_opcodeWord (m : Mnemonic) : Mnemonic.ofOpcode (opcodeWord m) = some m := by
  cases m <;> decide

/-- The lookup finds a mnemonic only where the whole word is its number (R71). -/
theorem ofOpcode_eq_some {w : Word} {m : Mnemonic} : Mnemonic.ofOpcode w = some m ↔ w = opcodeWord m := by
  constructor
  · intro h
    have := List.find?_some h
    exact (eq_of_beq this).symm
  · rintro rfl
    exact ofOpcode_opcodeWord m

/-- Every mnemonic is in the table. -/
theorem Mnemonic.mem_all (m : Mnemonic) : m ∈ Mnemonic.all := by
  cases m <;> decide

/-- A word outside the table is no mnemonic's opcode word (R75). -/
theorem ofOpcode_eq_none {w : Word} : Mnemonic.ofOpcode w = none ↔ ∀ m, w ≠ opcodeWord m := by
  constructor
  · intro h m hm
    rw [hm, ofOpcode_opcodeWord] at h
    cases h
  · intro h
    cases h' : Mnemonic.ofOpcode w with
    | none => rfl
    | some m => exact absurd (ofOpcode_eq_some.mp h') (h m)

/-- An instruction has as many operand words as its mnemonic's arity (R74). -/
theorem Instr.operands_length (i : Instr) : i.operands.length = i.mnemonic.arity := by
  cases i <;> rfl

end Sys2Proof
end

