-- ==== Sys2Proof/Laws/Memory.lean ====
section
/-!
SUPPORT. The laws of the word memories: a read after a write, and every operation keeps the canonical form.
-/

namespace Sys2Proof.Machine

@[simp] theorem lookup_insert_same (m : Memory) (i : Nat) (v : Word) : (m.insert i v).lookup i = some v := by
  induction m with
  | nil => simp [Memory.insert, Memory.lookup]
  | cons c m ih =>
    obtain ⟨j, w⟩ := c
    unfold Memory.insert
    split
    · simp [Memory.lookup]
    · split
      · simp [Memory.lookup]
      · next h1 h2 => simp [Memory.lookup, ih, Ne.symm h2]

theorem lookup_insert_other (m : Memory) {i k : Nat} (v : Word) (h : k ≠ i) :
    (m.insert i v).lookup k = m.lookup k := by
  induction m with
  | nil => simp [Memory.insert, Memory.lookup, Ne.symm h]
  | cons c m ih =>
    obtain ⟨j, w⟩ := c
    unfold Memory.insert
    split
    · simp [Memory.lookup, Ne.symm h]
    · split
      · next h2 => subst h2; simp [Memory.lookup, Ne.symm h]
      · simp only [Memory.lookup, ih]

theorem lookup_erase (m : Memory) (i k : Nat) :
    (m.erase i).lookup k = if k = i then none else m.lookup k := by
  induction m with
  | nil => simp [Memory.erase, Memory.lookup]
  | cons c m ih =>
    obtain ⟨j, w⟩ := c
    unfold Memory.erase at ih ⊢
    by_cases hj : j = i
    · subst hj
      simp only [List.filter_cons, bne_self_eq_false, Bool.false_eq_true, ↓reduceIte, ih, Memory.lookup]
      by_cases hk : k = j
      · simp [hk]
      · simp [hk, Ne.symm hk]
    · have hb : ((j, w).1 != i) = true := by simpa using hj
      simp only [List.filter_cons, hb, ↓reduceIte, Memory.lookup, ih]
      by_cases hk : k = i
      · subst hk; simp [hj]
      · simp [hk]

/-- A read of a zero-filled memory after a write to the same index. -/
@[simp] theorem read_write_same (m : Memory) (i : Nat) (v : Word) : (m.write i v).read i = v := by
  unfold Memory.write Memory.read
  split
  · next h => simp [lookup_erase, h]
  · simp

/-- A write leaves every other index alone. -/
theorem read_write_other (m : Memory) {i k : Nat} (v : Word) (h : k ≠ i) : (m.write i v).read k = m.read k := by
  unfold Memory.write Memory.read
  split
  · simp [lookup_erase, h]
  · simp [lookup_insert_other m v h]

theorem mem_insert {m : Memory} {i : Nat} {v : Word} {c : Nat × Word} (h : c ∈ m.insert i v) :
    c = (i, v) ∨ c ∈ m := by
  induction m with
  | nil => simpa [Memory.insert] using h
  | cons d m ih =>
    obtain ⟨j, w⟩ := d
    unfold Memory.insert at h
    split at h
    · simpa using h
    · split at h
      · simp only [List.mem_cons] at h ⊢; tauto
      · simp only [List.mem_cons] at h ⊢
        rcases h with h | h
        · tauto
        · rcases ih h with h | h <;> tauto

/-- Listing a word keeps the indices rising. -/
theorem insert_rising {m : Memory} (h : m.Rising) (i : Nat) (v : Word) : (m.insert i v).Rising := by
  induction m with
  | nil => simp [Memory.insert, Memory.Rising]
  | cons c m ih =>
    obtain ⟨j, w⟩ := c
    obtain ⟨hj, hm⟩ := List.pairwise_cons.mp h
    unfold Memory.insert
    split
    · next hlt =>
      refine List.pairwise_cons.mpr ⟨fun c hc => ?_, h⟩
      rcases List.mem_cons.mp hc with rfl | hc
      · exact hlt
      · exact Nat.lt_trans hlt (hj c hc)
    · split
      · next heq => exact List.pairwise_cons.mpr ⟨fun c hc => by simpa [heq] using hj c hc, hm⟩
      · next hnl hne =>
        refine List.pairwise_cons.mpr ⟨fun c hc => ?_, ih hm⟩
        rcases mem_insert hc with rfl | hc
        · simp only; omega
        · exact hj c hc

theorem erase_rising {m : Memory} (h : m.Rising) (i : Nat) : (m.erase i).Rising := h.filter _

/-- A write of a zero-filled memory keeps its canonical form. -/
theorem write_wf {m : Memory} (h : m.wf) (i : Nat) (v : Word) : (m.write i v).wf := by
  unfold Memory.write
  split
  · exact ⟨erase_rising h.1 i, fun c hc => h.2 c (List.mem_of_mem_filter hc)⟩
  · next hv =>
    refine ⟨insert_rising h.1 i v, fun c hc => ?_⟩
    rcases mem_insert hc with rfl | hc
    · exact hv
    · exact h.2 c hc

theorem insert_below {m : Memory} {n i : Nat} (h : m.below n) (hi : i < n) (v : Word) : (m.insert i v).below n := by
  intro c hc
  rcases mem_insert hc with rfl | hc
  · exact hi
  · exact h c hc

theorem write_below {m : Memory} {n i : Nat} (h : m.below n) (hi : i < n) (v : Word) : (m.write i v).below n := by
  unfold Memory.write
  split
  · exact fun c hc => h c (List.mem_of_mem_filter hc)
  · exact insert_below h hi v

theorem ofWords_index_ge {i : Nat} {ws : List Word} {c : Nat × Word} (h : c ∈ Memory.ofWords i ws) : i ≤ c.1 := by
  induction ws generalizing i with
  | nil => simp [Memory.ofWords] at h
  | cons w ws ih =>
    unfold Memory.ofWords at h
    split at h
    · exact Nat.le_of_succ_le (ih h)
    · rcases List.mem_cons.mp h with rfl | h
      · exact Nat.le_refl _
      · exact Nat.le_of_succ_le (ih h)

/-- A program's words are listed in canonical form. -/
theorem ofWords_wf (i : Nat) (ws : List Word) : (Memory.ofWords i ws).wf := by
  induction ws generalizing i with
  | nil => simp [Memory.ofWords, Memory.wf, Memory.Rising]
  | cons w ws ih =>
    unfold Memory.ofWords
    split
    · exact ih _
    · next hw =>
      refine ⟨List.pairwise_cons.mpr ⟨fun c hc => ofWords_index_ge hc, (ih _).1⟩, fun c hc => ?_⟩
      rcases List.mem_cons.mp hc with rfl | hc
      · exact hw
      · exact (ih _).2 c hc

theorem lookup_ofWords_lt {i k : Nat} {ws : List Word} (h : k < i) : (Memory.ofWords i ws).lookup k = none := by
  induction ws generalizing i with
  | nil => rfl
  | cons w ws ih =>
    unfold Memory.ofWords
    split
    · exact ih (by omega)
    · simp only [Memory.lookup]
      rw [if_neg (by omega), ih (by omega)]

/-- A loaded program reads back word for word. -/
theorem read_ofWords (i k : Nat) (ws : List Word) : (Memory.ofWords i ws).read (i + k) = ws.getD k 0 := by
  induction ws generalizing i k with
  | nil => simp [Memory.ofWords, Memory.read, Memory.lookup]
  | cons w ws ih =>
    unfold Memory.ofWords
    cases k with
    | zero =>
      split
      · next h => simp [Memory.read, lookup_ofWords_lt (Nat.lt_succ_self i), h]
      · simp [Memory.read, Memory.lookup]
    | succ k =>
      have hk : i + (k + 1) = (i + 1) + k := by omega
      split
      · rw [hk, ih]; simp
      · have : i ≠ i + 1 + k := by omega
        simp only [Memory.read, Memory.lookup, hk, if_neg this]
        simpa [Memory.read] using ih (i + 1) k

/-- `Stack[i]` after `Stack[i] <- v`. -/
@[simp] theorem stackRead_stackWrite_same (s : State) (i : Nat) (v : Word) : stackRead (stackWrite s i v) i = v := by
  simp [stackRead, stackWrite]

/-- A stack write leaves every other slot alone. -/
theorem stackRead_stackWrite_other (s : State) {i k : Nat} (v : Word) (h : k ≠ i) :
    stackRead (stackWrite s i v) k = stackRead s k := by
  simp [stackRead, stackWrite, lookup_insert_other _ v h]

/-- A stack read depends on the stack and on the reset that drew its unwritten slots, and on nothing else. -/
theorem stackRead_congr {s t : State} (h1 : t.stack = s.stack) (h2 : t.resetCount = s.resetCount) (i : Nat) :
    stackRead t i = stackRead s i := by
  simp [stackRead, h1, h2]

@[simp] theorem globalRead_globalWrite_same (s : State) (i : Nat) (v : Word) : globalRead (globalWrite s i v) i = v := by
  simp [globalRead, globalWrite]

theorem globalRead_globalWrite_other (s : State) {i k : Nat} (v : Word) (h : k ≠ i) :
    globalRead (globalWrite s i v) k = globalRead s k := by
  simp [globalRead, globalWrite, read_write_other _ v h]

/-- A read of the instruction memory depends on `IMem` and `ICOUNT` alone. -/
theorem imemAt_congr {s t : State} (h1 : t.imem = s.imem) (h2 : t.icount = s.icount) (z : Int) :
    imemAt t z = imemAt s z := by
  simp [imemAt, h1, h2]

/-- A stack write keeps the canonical form of all three memories. -/
theorem stackWrite_memoriesWf {s : State} (h : s.memoriesWf) (i : Nat) (v : Word) : (stackWrite s i v).memoriesWf :=
  ⟨insert_rising h.1 i v, h.2⟩

/-- A global write keeps the canonical form of all three memories. -/
theorem globalWrite_memoriesWf {s : State} (h : s.memoriesWf) (i : Nat) (v : Word) : (globalWrite s i v).memoriesWf :=
  ⟨h.1, write_wf h.2.1 i v, h.2.2⟩

/-- The memories of the reset state are in canonical form. -/
theorem reset_memoriesWf : State.reset.memoriesWf := by decide

end Sys2Proof.Machine
end

