-- ==== Sys2Proof/Laws/State.lean ====
section
/-!
SUPPORT. What each named update of the state leaves in each field: one lemma per field.
-/

namespace Sys2Proof.Machine

section StackWrite
variable (s : State) (i : Nat) (v : Word)
@[simp] theorem stackWrite_ip : (stackWrite s i v).ip = s.ip := rfl
@[simp] theorem stackWrite_sp : (stackWrite s i v).sp = s.sp := rfl
@[simp] theorem stackWrite_fp : (stackWrite s i v).fp = s.fp := rfl
@[simp] theorem stackWrite_stack : (stackWrite s i v).stack = s.stack.insert i v := rfl
@[simp] theorem stackWrite_globals : (stackWrite s i v).globals = s.globals := rfl
@[simp] theorem stackWrite_imem : (stackWrite s i v).imem = s.imem := rfl
@[simp] theorem stackWrite_status : (stackWrite s i v).status = s.status := rfl
@[simp] theorem stackWrite_cause : (stackWrite s i v).cause = s.cause := rfl
@[simp] theorem stackWrite_faultIp : (stackWrite s i v).faultIp = s.faultIp := rfl
@[simp] theorem stackWrite_faultInfo : (stackWrite s i v).faultInfo = s.faultInfo := rfl
@[simp] theorem stackWrite_traceEn : (stackWrite s i v).traceEn = s.traceEn := rfl
@[simp] theorem stackWrite_icount : (stackWrite s i v).icount = s.icount := rfl
@[simp] theorem stackWrite_entry : (stackWrite s i v).entry = s.entry := rfl
@[simp] theorem stackWrite_gcount : (stackWrite s i v).gcount = s.gcount := rfl
@[simp] theorem stackWrite_events : (stackWrite s i v).events = s.events := rfl
@[simp] theorem stackWrite_resetCount : (stackWrite s i v).resetCount = s.resetCount := rfl
end StackWrite

section GlobalWrite
variable (s : State) (i : Nat) (v : Word)
@[simp] theorem globalWrite_ip : (globalWrite s i v).ip = s.ip := rfl
@[simp] theorem globalWrite_sp : (globalWrite s i v).sp = s.sp := rfl
@[simp] theorem globalWrite_fp : (globalWrite s i v).fp = s.fp := rfl
@[simp] theorem globalWrite_stack : (globalWrite s i v).stack = s.stack := rfl
@[simp] theorem globalWrite_globals : (globalWrite s i v).globals = s.globals.write i v := rfl
@[simp] theorem globalWrite_imem : (globalWrite s i v).imem = s.imem := rfl
@[simp] theorem globalWrite_status : (globalWrite s i v).status = s.status := rfl
@[simp] theorem globalWrite_cause : (globalWrite s i v).cause = s.cause := rfl
@[simp] theorem globalWrite_faultIp : (globalWrite s i v).faultIp = s.faultIp := rfl
@[simp] theorem globalWrite_faultInfo : (globalWrite s i v).faultInfo = s.faultInfo := rfl
@[simp] theorem globalWrite_traceEn : (globalWrite s i v).traceEn = s.traceEn := rfl
@[simp] theorem globalWrite_icount : (globalWrite s i v).icount = s.icount := rfl
@[simp] theorem globalWrite_entry : (globalWrite s i v).entry = s.entry := rfl
@[simp] theorem globalWrite_gcount : (globalWrite s i v).gcount = s.gcount := rfl
@[simp] theorem globalWrite_events : (globalWrite s i v).events = s.events := rfl
@[simp] theorem globalWrite_resetCount : (globalWrite s i v).resetCount = s.resetCount := rfl
end GlobalWrite

section TakeFault
variable (c : Cause) (info cur : Word) (s : State)
@[simp] theorem takeFault_ip : (takeFault c info cur s).ip = s.ip := rfl
@[simp] theorem takeFault_sp : (takeFault c info cur s).sp = s.sp := rfl
@[simp] theorem takeFault_fp : (takeFault c info cur s).fp = s.fp := rfl
@[simp] theorem takeFault_stack : (takeFault c info cur s).stack = s.stack := rfl
@[simp] theorem takeFault_globals : (takeFault c info cur s).globals = s.globals := rfl
@[simp] theorem takeFault_imem : (takeFault c info cur s).imem = s.imem := rfl
@[simp] theorem takeFault_status : (takeFault c info cur s).status = .faulted := rfl
@[simp] theorem takeFault_cause : (takeFault c info cur s).cause = c := rfl
@[simp] theorem takeFault_faultIp : (takeFault c info cur s).faultIp = some (if c = .ipOutOfBounds then s.ip else cur) := rfl
@[simp] theorem takeFault_faultInfo : (takeFault c info cur s).faultInfo = some info := rfl
@[simp] theorem takeFault_traceEn : (takeFault c info cur s).traceEn = s.traceEn := rfl
@[simp] theorem takeFault_icount : (takeFault c info cur s).icount = s.icount := rfl
@[simp] theorem takeFault_entry : (takeFault c info cur s).entry = s.entry := rfl
@[simp] theorem takeFault_gcount : (takeFault c info cur s).gcount = s.gcount := rfl
@[simp] theorem takeFault_events : (takeFault c info cur s).events = s.events := rfl
@[simp] theorem takeFault_resetCount : (takeFault c info cur s).resetCount = s.resetCount := rfl
end TakeFault

section Emit
variable (r : TraceRecord) (s : State)
@[simp] theorem emit_ip : (emit r s).ip = s.ip := by unfold emit; split <;> rfl
@[simp] theorem emit_sp : (emit r s).sp = s.sp := by unfold emit; split <;> rfl
@[simp] theorem emit_fp : (emit r s).fp = s.fp := by unfold emit; split <;> rfl
@[simp] theorem emit_stack : (emit r s).stack = s.stack := by unfold emit; split <;> rfl
@[simp] theorem emit_globals : (emit r s).globals = s.globals := by unfold emit; split <;> rfl
@[simp] theorem emit_imem : (emit r s).imem = s.imem := by unfold emit; split <;> rfl
@[simp] theorem emit_status : (emit r s).status = s.status := by unfold emit; split <;> rfl
@[simp] theorem emit_cause : (emit r s).cause = s.cause := by unfold emit; split <;> rfl
@[simp] theorem emit_faultIp : (emit r s).faultIp = s.faultIp := by unfold emit; split <;> rfl
@[simp] theorem emit_faultInfo : (emit r s).faultInfo = s.faultInfo := by unfold emit; split <;> rfl
@[simp] theorem emit_traceEn : (emit r s).traceEn = s.traceEn := by unfold emit; split <;> rfl
@[simp] theorem emit_icount : (emit r s).icount = s.icount := by unfold emit; split <;> rfl
@[simp] theorem emit_entry : (emit r s).entry = s.entry := by unfold emit; split <;> rfl
@[simp] theorem emit_gcount : (emit r s).gcount = s.gcount := by unfold emit; split <;> rfl
theorem emit_events : (emit r s).events = s.events ++ (if s.traceEn then [.record r] else []) := by
  unfold emit; split <;> simp_all
@[simp] theorem emit_resetCount : (emit r s).resetCount = s.resetCount := by unfold emit; split <;> rfl
end Emit

/-- With tracing off nothing is emitted (R36). -/
theorem emit_off {r : TraceRecord} {s : State} (h : s.traceEn = false) : emit r s = s := by simp [emit, h]

section TraceUnit
variable (cur opcode : Word) (s : State)
@[simp] theorem tracePre_ip : (tracePre cur opcode s).ip = s.ip := by simp [tracePre]
@[simp] theorem tracePost_ip : (tracePost s).ip = s.ip := by simp [tracePost]
@[simp] theorem traceFinal_ip : (traceFinal s).ip = s.ip := by simp [traceFinal]
@[simp] theorem tracePre_sp : (tracePre cur opcode s).sp = s.sp := by simp [tracePre]
@[simp] theorem tracePost_sp : (tracePost s).sp = s.sp := by simp [tracePost]
@[simp] theorem traceFinal_sp : (traceFinal s).sp = s.sp := by simp [traceFinal]
@[simp] theorem tracePre_fp : (tracePre cur opcode s).fp = s.fp := by simp [tracePre]
@[simp] theorem tracePost_fp : (tracePost s).fp = s.fp := by simp [tracePost]
@[simp] theorem traceFinal_fp : (traceFinal s).fp = s.fp := by simp [traceFinal]
@[simp] theorem tracePre_stack : (tracePre cur opcode s).stack = s.stack := by simp [tracePre]
@[simp] theorem tracePost_stack : (tracePost s).stack = s.stack := by simp [tracePost]
@[simp] theorem traceFinal_stack : (traceFinal s).stack = s.stack := by simp [traceFinal]
@[simp] theorem tracePre_globals : (tracePre cur opcode s).globals = s.globals := by simp [tracePre]
@[simp] theorem tracePost_globals : (tracePost s).globals = s.globals := by simp [tracePost]
@[simp] theorem traceFinal_globals : (traceFinal s).globals = s.globals := by simp [traceFinal]
@[simp] theorem tracePre_imem : (tracePre cur opcode s).imem = s.imem := by simp [tracePre]
@[simp] theorem tracePost_imem : (tracePost s).imem = s.imem := by simp [tracePost]
@[simp] theorem traceFinal_imem : (traceFinal s).imem = s.imem := by simp [traceFinal]
@[simp] theorem tracePre_status : (tracePre cur opcode s).status = s.status := by simp [tracePre]
@[simp] theorem tracePost_status : (tracePost s).status = s.status := by simp [tracePost]
@[simp] theorem traceFinal_status : (traceFinal s).status = s.status := by simp [traceFinal]
@[simp] theorem tracePre_cause : (tracePre cur opcode s).cause = s.cause := by simp [tracePre]
@[simp] theorem tracePost_cause : (tracePost s).cause = s.cause := by simp [tracePost]
@[simp] theorem traceFinal_cause : (traceFinal s).cause = s.cause := by simp [traceFinal]
@[simp] theorem tracePre_faultIp : (tracePre cur opcode s).faultIp = s.faultIp := by simp [tracePre]
@[simp] theorem tracePost_faultIp : (tracePost s).faultIp = s.faultIp := by simp [tracePost]
@[simp] theorem traceFinal_faultIp : (traceFinal s).faultIp = s.faultIp := by simp [traceFinal]
@[simp] theorem tracePre_faultInfo : (tracePre cur opcode s).faultInfo = s.faultInfo := by simp [tracePre]
@[simp] theorem tracePost_faultInfo : (tracePost s).faultInfo = s.faultInfo := by simp [tracePost]
@[simp] theorem traceFinal_faultInfo : (traceFinal s).faultInfo = s.faultInfo := by simp [traceFinal]
@[simp] theorem tracePre_traceEn : (tracePre cur opcode s).traceEn = s.traceEn := by simp [tracePre]
@[simp] theorem tracePost_traceEn : (tracePost s).traceEn = s.traceEn := by simp [tracePost]
@[simp] theorem traceFinal_traceEn : (traceFinal s).traceEn = s.traceEn := by simp [traceFinal]
@[simp] theorem tracePre_icount : (tracePre cur opcode s).icount = s.icount := by simp [tracePre]
@[simp] theorem tracePost_icount : (tracePost s).icount = s.icount := by simp [tracePost]
@[simp] theorem traceFinal_icount : (traceFinal s).icount = s.icount := by simp [traceFinal]
@[simp] theorem tracePre_entry : (tracePre cur opcode s).entry = s.entry := by simp [tracePre]
@[simp] theorem tracePost_entry : (tracePost s).entry = s.entry := by simp [tracePost]
@[simp] theorem traceFinal_entry : (traceFinal s).entry = s.entry := by simp [traceFinal]
@[simp] theorem tracePre_gcount : (tracePre cur opcode s).gcount = s.gcount := by simp [tracePre]
@[simp] theorem tracePost_gcount : (tracePost s).gcount = s.gcount := by simp [tracePost]
@[simp] theorem traceFinal_gcount : (traceFinal s).gcount = s.gcount := by simp [traceFinal]
@[simp] theorem tracePre_resetCount : (tracePre cur opcode s).resetCount = s.resetCount := by simp [tracePre]
@[simp] theorem tracePost_resetCount : (tracePost s).resetCount = s.resetCount := by simp [tracePost]
@[simp] theorem traceFinal_resetCount : (traceFinal s).resetCount = s.resetCount := by simp [traceFinal]
end TraceUnit

/-- `out` gains nothing from a trace record. -/
@[simp] theorem emit_out (r : TraceRecord) (s : State) : (emit r s).out = s.out := by
  unfold State.out; rw [emit_events]; split <;> simp

/-- What `emit` adds to the trace (R173). -/
theorem emit_trace (r : TraceRecord) (s : State) : (emit r s).trace = s.trace ++ (if s.traceEn then [r] else []) := by
  unfold State.trace; rw [emit_events]; split <;> simp

@[simp] theorem tracePre_out (cur opcode : Word) (s : State) : (tracePre cur opcode s).out = s.out := by simp [tracePre]
@[simp] theorem tracePost_out (s : State) : (tracePost s).out = s.out := by simp [tracePost]
@[simp] theorem traceFinal_out (s : State) : (traceFinal s).out = s.out := by simp [traceFinal]

@[simp] theorem takeFault_out (c : Cause) (info cur : Word) (s : State) : (takeFault c info cur s).out = s.out := rfl
@[simp] theorem takeFault_trace (c : Cause) (info cur : Word) (s : State) :
    (takeFault c info cur s).trace = s.trace := rfl

end Sys2Proof.Machine
end

