-- ==== Sys2Proof/Laws/Word.lean ====
section
/-!
SUPPORT. Word arithmetic read as integer arithmetic, for values in range, and the values of the build parameters.
-/

namespace Sys2Proof

/-- A word is in the signed range (R9). -/
theorem Word.toInt_range (w : Word) : -2147483648 ≤ w.toInt ∧ w.toInt ≤ 2147483647 := by
  have h1 := BitVec.le_toInt w
  have h2 := @BitVec.toInt_lt wordBits w
  norm_num at h1 h2
  omega

/-- `wrap` of an integer in range is that integer (R9, R115). -/
theorem toInt_wrap {z : Int} (h1 : -2147483648 ≤ z) (h2 : z ≤ 2147483647) : (wrap z).toInt = z := by
  unfold wrap
  rw [BitVec.toInt_ofInt]
  simp only [Int.bmod]
  norm_num
  split <;> omega

/-- A word is the `wrap` of its integer. -/
@[simp] theorem wrap_toInt (w : Word) : wrap w.toInt = w := BitVec.ofInt_toInt

/-- Words with the same integer are equal. -/
theorem Word.ext_toInt {a b : Word} (h : a.toInt = b.toInt) : a = b := BitVec.eq_of_toInt_eq h

/-- Adding a small constant within range is exact. -/
theorem toInt_add_of_range {a b : Word} (h1 : -2147483648 ≤ a.toInt + b.toInt) (h2 : a.toInt + b.toInt ≤ 2147483647) :
    (a + b).toInt = a.toInt + b.toInt := by
  have : a + b = wrap (a.toInt + b.toInt) := by simp [wrap, BitVec.ofInt_add]
  rw [this, toInt_wrap h1 h2]

/-- Subtracting within range is exact. -/
theorem toInt_sub_of_range {a b : Word} (h1 : -2147483648 ≤ a.toInt - b.toInt) (h2 : a.toInt - b.toInt ≤ 2147483647) :
    (a - b).toInt = a.toInt - b.toInt := by
  have : a - b = wrap (a.toInt - b.toInt) := by
    apply Word.ext_toInt
    rw [BitVec.toInt_sub]
    simp [wrap, BitVec.toInt_ofInt]
  rw [this, toInt_wrap h1 h2]

/-- `w + 1` within range. -/
theorem toInt_add_one {w : Word} (h : w.toInt < 2147483647) : (w + 1).toInt = w.toInt + 1 := by
  have := Word.toInt_range w
  have h1 : (1 : Word).toInt = 1 := by decide
  rw [toInt_add_of_range] <;> omega

/-- `w - 1` within range. -/
theorem toInt_sub_one {w : Word} (h : -2147483648 < w.toInt) : (w - 1).toInt = w.toInt - 1 := by
  have := Word.toInt_range w
  have h1 : (1 : Word).toInt = 1 := by decide
  rw [toInt_sub_of_range] <;> omega

namespace Machine

@[simp] theorem stackCapacity_eq : stackCapacity = 1000 := rfl
@[simp] theorem trueWord_eq : trueWord = 1 := rfl
@[simp] theorem falseWord_eq : falseWord = 0 := rfl
@[simp] theorem overflowResult_eq (z : Int) : overflowResult z = wrap z := by simp [overflowResult]
@[simp] theorem initCopyIndex_eq (n k : Nat) : initCopyIndex n k = k := rfl

end Machine

end Sys2Proof
end

