-- ==== Sys2Proof/Laws/Ops.lean ====
section
/-!
SUPPORT. What each shared operation can do, said once: when it goes on and with what, when it raises which fault, and
how two pieces of pseudocode combine.
-/

namespace Sys2Proof.Machine

@[simp] theorem Flow.bind_go {α β : Type} (a : α) (s : State) (k : α → State → Flow β) :
    (Flow.go a s).bind k = k a s := rfl

@[simp] theorem Flow.bind_trap {α β : Type} (c : Cause) (info : Word) (s : State) (k : α → State → Flow β) :
    (Flow.trap c info s : Flow α).bind k = .trap c info s := rfl

@[simp] theorem Flow.finish_go (cur : Word) (s : State) : (Flow.go () s).finish cur = .next s := rfl

@[simp] theorem Flow.finish_trap (cur : Word) (c : Cause) (info : Word) (s : State) :
    (Flow.trap c info s : Flow Unit).finish cur = .next (takeFault c info cur s) := rfl

/-- Whatever an instruction's pseudocode does, the instruction answers a next state. -/
theorem Flow.finish_next (r : Flow Unit) (cur : Word) :
    ∃ t, r.finish cur = .next t ∧
      ((∃ s, r = .go () s ∧ t = s) ∨ (∃ c info s, r = .trap c info s ∧ t = takeFault c info cur s)) := by
  cases r with
  | go a s => exact ⟨s, rfl, .inl ⟨s, rfl, rfl⟩⟩
  | trap c info s => exact ⟨_, rfl, .inr ⟨c, info, s, rfl, rfl⟩⟩

/-- The state a piece of pseudocode leaves, whether it went on or raised a fault. -/
def Flow.state {α : Type} : Flow α → State
  | .go _ s => s
  | .trap _ _ s => s

@[simp] theorem Flow.state_go {α : Type} (a : α) (s : State) : (Flow.go a s).state = s := rfl
@[simp] theorem Flow.state_trap {α : Type} (c : Cause) (info : Word) (s : State) :
    (Flow.trap c info s : Flow α).state = s := rfl

/-- A transitive relation that each statement keeps is kept by their sequence. -/
theorem Flow.bind_keeps {α β : Type} {R : State → State → Prop} (htrans : ∀ a b c, R a b → R b c → R a c)
    {s : State} {r : Flow α} {k : α → State → Flow β} (hr : R s r.state) (hk : ∀ a t, R t (k a t).state) :
    R s (r.bind k).state := by
  cases r with
  | go a t => exact htrans _ _ _ hr (hk a t)
  | trap c info t => exact hr

/-- `Push` on a stack with room (R98). -/
theorem push_go {v : Word} {s : State} (h : s.sp.toInt + 1 < 1000) :
    push v s = .go () { s with sp := s.sp + 1, stack := s.stack.insert (s.sp.toInt + 1).toNat v } := by
  unfold push
  rw [if_neg (by simp only [stackCapacity_eq]; omega)]
  rfl

/-- `Push` on a full stack (R98). -/
theorem push_trap {v : Word} {s : State} (h : 1000 ≤ s.sp.toInt + 1) : push v s = .trap .stackOverflow s.sp s := by
  unfold push
  rw [if_pos (by simp only [stackCapacity_eq]; omega)]

/-- Everything `Push` can do. -/
theorem push_cases (v : Word) (s : State) :
    (s.sp.toInt + 1 < 1000 ∧
      push v s = .go () { s with sp := s.sp + 1, stack := s.stack.insert (s.sp.toInt + 1).toNat v }) ∨
    (1000 ≤ s.sp.toInt + 1 ∧ push v s = .trap .stackOverflow s.sp s) := by
  rcases Int.lt_or_le (s.sp.toInt + 1) 1000 with h | h
  · exact .inl ⟨h, push_go h⟩
  · exact .inr ⟨h, push_trap h⟩

/-- `Pop` from a stack that is not empty (R99). -/
theorem pop_go {s : State} (h : 0 ≤ s.sp.toInt) :
    pop s = .go (stackRead s s.sp.toInt.toNat) { s with sp := s.sp - 1 } := by
  unfold pop
  rw [if_neg (by omega)]

/-- `Pop` from the empty stack (R99). -/
theorem pop_trap {s : State} (h : s.sp.toInt < 0) : pop s = .trap .stackUnderflow s.sp s := by
  unfold pop
  rw [if_pos h]

/-- Everything `Pop` can do. -/
theorem pop_cases (s : State) :
    (0 ≤ s.sp.toInt ∧ pop s = .go (stackRead s s.sp.toInt.toNat) { s with sp := s.sp - 1 }) ∨
    (s.sp.toInt < 0 ∧ pop s = .trap .stackUnderflow s.sp s) := by
  rcases Int.lt_or_le s.sp.toInt 0 with h | h
  · exact .inr ⟨h, pop_trap h⟩
  · exact .inl ⟨h, pop_go h⟩

/-- `SetSp` within range (R100). -/
theorem setSp_go {z : Int} {s : State} (h1 : -1 ≤ z) (h2 : z < 1000) : setSp z s = .go () { s with sp := wrap z } := by
  unfold setSp
  rw [if_neg (by simp only [stackCapacity_eq]; omega)]

/-- `SetSp` out of range (R100). -/
theorem setSp_trap {z : Int} {s : State} (h : z < -1 ∨ 1000 ≤ z) : setSp z s = .trap .spOutOfRange (wrap z) s := by
  unfold setSp
  rw [if_pos (by simp only [stackCapacity_eq]; omega)]

/-- Everything `SetSp` can do. -/
theorem setSp_cases (z : Int) (s : State) :
    ((-1 ≤ z ∧ z < 1000) ∧ setSp z s = .go () { s with sp := wrap z }) ∨
    ((z < -1 ∨ 1000 ≤ z) ∧ setSp z s = .trap .spOutOfRange (wrap z) s) := by
  by_cases h : z < -1 ∨ 1000 ≤ z
  · exact .inr ⟨h, setSp_trap h⟩
  · exact .inl ⟨by omega, setSp_go (by omega) (by omega)⟩

/-- `StackIdx` inside the stack memory (R101). -/
theorem stackIdx_go {z : Int} {s : State} (h1 : 0 ≤ z) (h2 : z < 1000) : stackIdx z s = .go z.toNat s := by
  unfold stackIdx
  rw [if_neg (by simp only [stackCapacity_eq]; omega)]

/-- `StackIdx` outside it (R101). -/
theorem stackIdx_trap {z : Int} {s : State} (h : z < 0 ∨ 1000 ≤ z) :
    stackIdx z s = .trap .stackIndexOutOfBounds (wrap z) s := by
  unfold stackIdx
  rw [if_pos (by simp only [stackCapacity_eq]; omega)]

/-- Everything `StackIdx` can do. -/
theorem stackIdx_cases (z : Int) (s : State) :
    ((0 ≤ z ∧ z < 1000) ∧ stackIdx z s = .go z.toNat s) ∨
    ((z < 0 ∨ 1000 ≤ z) ∧ stackIdx z s = .trap .stackIndexOutOfBounds (wrap z) s) := by
  by_cases h : z < 0 ∨ 1000 ≤ z
  · exact .inr ⟨h, stackIdx_trap h⟩
  · exact .inl ⟨by omega, stackIdx_go (by omega) (by omega)⟩

/-- `GlobalIdx` of an existing slot (R102). -/
theorem globalIdx_go {v : Word} {s : State} (h1 : 0 ≤ v.toInt) (h2 : v.toInt < s.gcount.toInt) :
    globalIdx v s = .go v.toInt.toNat s := by
  unfold globalIdx
  rw [if_neg (by omega)]

/-- `GlobalIdx` of a slot that does not exist (R102). -/
theorem globalIdx_trap {v : Word} {s : State} (h : v.toInt < 0 ∨ s.gcount.toInt ≤ v.toInt) :
    globalIdx v s = .trap .globalIndexOutOfBounds v s := by
  unfold globalIdx
  rw [if_pos (by omega)]

/-- Everything `GlobalIdx` can do. -/
theorem globalIdx_cases (v : Word) (s : State) :
    ((0 ≤ v.toInt ∧ v.toInt < s.gcount.toInt) ∧ globalIdx v s = .go v.toInt.toNat s) ∨
    ((v.toInt < 0 ∨ s.gcount.toInt ≤ v.toInt) ∧ globalIdx v s = .trap .globalIndexOutOfBounds v s) := by
  by_cases h : v.toInt < 0 ∨ s.gcount.toInt ≤ v.toInt
  · exact .inr ⟨h, globalIdx_trap h⟩
  · exact .inl ⟨by omega, globalIdx_go (by omega) (by omega)⟩

@[simp] theorem out_eq (v : Word) (s : State) : out v s = .go () { s with events := s.events ++ [.output v] } := rfl
@[simp] theorem setIp_eq (w : Word) (s : State) : setIp w s = .go () { s with ip := w } := rfl
@[simp] theorem setFp_eq (w : Word) (s : State) : setFp w s = .go () { s with fp := w } := rfl

/-- Everything a read of the instruction memory can do (R56). -/
theorem imemAt_cases (s : State) (z : Int) :
    ((0 ≤ z ∧ z < s.icount.toInt) ∧ imemAt s z = some (s.imem.read z.toNat)) ∨
    (¬(0 ≤ z ∧ z < s.icount.toInt) ∧ imemAt s z = none) := by
  unfold imemAt
  by_cases h : 0 ≤ z ∧ z < s.icount.toInt
  · exact .inl ⟨h, if_pos h⟩
  · exact .inr ⟨h, if_neg h⟩

/-- `Operand` inside the instruction memory (R97). -/
theorem operand_go {s : State} {w : Word} (h : imemAt s s.ip.toInt = some w) :
    operand s = .go w { s with ip := s.ip + 1 } := by
  simp [operand, h]

/-- `Operand` past its end (R97). -/
theorem operand_trap {s : State} (h : imemAt s s.ip.toInt = none) :
    operand s = .trap .operandOutOfBounds s.ip s := by
  simp [operand, h]

end Sys2Proof.Machine
end

