-- ==== Sys2Proof/Laws/Frames.lean ====
section
/-!
SUPPORT. What each instruction's pseudocode can touch: every instruction but HALT is its pseudocode ended by
`Flow.finish`, and the pseudocode of all but GSTORE and PRINT changes nothing but `ip`, `sp`, `fp` and the stack memory.
-/

namespace Sys2Proof.Machine

/-- Nothing but `ip`, `sp`, `fp` and the stack memory may differ. -/
def SameButFrame (s t : State) : Prop := t = { s with ip := t.ip, sp := t.sp, fp := t.fp, stack := t.stack }

theorem SameButFrame.refl (s : State) : SameButFrame s s := rfl

theorem SameButFrame.trans {a b c : State} (h1 : SameButFrame a b) (h2 : SameButFrame b c) : SameButFrame a c := by
  unfold SameButFrame at *
  rw [h1] at h2
  exact h2

theorem push_frame (v : Word) (s : State) : SameButFrame s (push v s).state := by
  rcases push_cases v s with ⟨_, h⟩ | ⟨_, h⟩ <;> rw [h] <;> rfl

theorem pop_frame (s : State) : SameButFrame s (pop s).state := by
  rcases pop_cases s with ⟨_, h⟩ | ⟨_, h⟩ <;> rw [h] <;> rfl

theorem setSp_frame (z : Int) (s : State) : SameButFrame s (setSp z s).state := by
  rcases setSp_cases z s with ⟨_, h⟩ | ⟨_, h⟩ <;> rw [h] <;> rfl

theorem stackIdx_state (z : Int) (s : State) : (stackIdx z s).state = s := by
  rcases stackIdx_cases z s with ⟨_, h⟩ | ⟨_, h⟩ <;> rw [h] <;> rfl

theorem globalIdx_state (v : Word) (s : State) : (globalIdx v s).state = s := by
  rcases globalIdx_cases v s with ⟨_, h⟩ | ⟨_, h⟩ <;> rw [h] <;> rfl

theorem stackIdx_frame (z : Int) (s : State) : SameButFrame s (stackIdx z s).state := by
  rw [stackIdx_state]; exact .refl s

theorem globalIdx_frame (v : Word) (s : State) : SameButFrame s (globalIdx v s).state := by
  rw [globalIdx_state]; exact .refl s

/-- The sequence of two statements that touch only the frame touches only the frame. -/
theorem bind_frame {α β : Type} {s : State} {r : Flow α} {k : α → State → Flow β} (hr : SameButFrame s r.state)
    (hk : ∀ a t, SameButFrame t (k a t).state) : SameButFrame s (r.bind k).state :=
  Flow.bind_keeps (R := SameButFrame) (fun _ _ _ h1 h2 => h1.trans h2) hr hk

theorem setIp_frame (w : Word) (s : State) : SameButFrame s (setIp w s).state := rfl
theorem setFp_frame (w : Word) (s : State) : SameButFrame s (setFp w s).state := rfl

theorem binary_frame (f : Word → Word → Word) (s : State) : SameButFrame s (binary f s).state :=
  bind_frame (pop_frame s) fun _ t => bind_frame (pop_frame t) fun _ u => push_frame _ u

theorem popBranch_frame (taken : Word → Bool) (addr : Word) (s : State) :
    SameButFrame s (popBranch taken addr s).state :=
  bind_frame (pop_frame s) fun _ t => by
    split
    · exact setIp_frame addr t
    · exact .refl t

theorem frameSlot_frame (off : Word) (s : State) : SameButFrame s (frameSlot off s).state := stackIdx_frame _ s
theorem globalSlot_frame (off : Word) (s : State) : SameButFrame s (globalSlot off s).state := globalIdx_frame _ s

theorem stackWrite_frame (i : Nat) (v : Word) (s : State) :
    SameButFrame s (Flow.go () (stackWrite s i v) : Flow Unit).state := rfl

theorem callBody_frame (addr nargs : Word) (s : State) : SameButFrame s (callBody addr nargs s).state :=
  bind_frame (push_frame _ s) fun _ t => bind_frame (push_frame _ t) fun _ t => bind_frame (push_frame _ t) fun _ t =>
    bind_frame (setFp_frame _ t) fun _ t => setIp_frame addr t

theorem retBody_frame (s : State) : SameButFrame s (retBody s).state :=
  bind_frame (pop_frame s) fun _ t => bind_frame (setSp_frame _ t) fun _ t => bind_frame (pop_frame t) fun _ t =>
    bind_frame (setIp_frame _ t) fun _ t => bind_frame (pop_frame t) fun _ t => bind_frame (setFp_frame _ t) fun _ t =>
    bind_frame (pop_frame t) fun _ t => bind_frame (setSp_frame _ t) fun _ t => push_frame _ t

theorem copyWord_frame (base : Int) (i : Nat) (s : State) : SameButFrame s (copyWord base i s).state :=
  bind_frame (stackIdx_frame _ s) fun _ t => bind_frame (stackIdx_frame _ t) fun _ _ => rfl

theorem copyWords_frame (base : Int) (n left : Nat) (s : State) : SameButFrame s (copyWords base n left s).state := by
  induction left generalizing s with
  | zero => exact .refl s
  | succ left ih => exact bind_frame (copyWord_frame _ _ s) fun _ t => ih t

theorem initBody_frame (s : State) : SameButFrame s (initBody s).state :=
  bind_frame (pop_frame s) fun _ t => bind_frame (pop_frame t) fun _ t => bind_frame (copyWords_frame _ _ _ t) fun _ t =>
    bind_frame (setSp_frame _ t) fun _ t => setIp_frame _ t

/-- The pseudocode of each instruction; HALT's is all in the fetch phase (R93). -/
def body : Instr → State → Flow Unit
  | .iadd => binary fun a b => overflowResult (a.toInt + b.toInt)
  | .isub => binary fun a b => overflowResult (a.toInt - b.toInt)
  | .imul => binary fun a b => overflowResult (a.toInt * b.toInt)
  | .ilt => binary fun a b => boolWord (decide (a.toInt < b.toInt))
  | .ieq => binary fun a b => boolWord (a == b)
  | .br addr => setIp addr
  | .brt addr => popBranch isTrue addr
  | .brf addr => popBranch isFalse addr
  | .iconst k => push k
  | .load off => fun s => (frameSlot off s).bind fun i s => push (stackRead s i) s
  | .store off => fun s => (pop s).bind fun v s => (frameSlot off s).bind fun i s => .go () (stackWrite s i v)
  | .gload off => fun s => (globalSlot off s).bind fun g s => push (globalRead s g) s
  | .gstore off => fun s => (pop s).bind fun v s => (globalSlot off s).bind fun g s => .go () (globalWrite s g v)
  | .print => fun s => (pop s).bind fun v s => out v s
  | .pop => fun s => (pop s).bind fun _ s => .go () s
  | .halt => fun s => .go () s
  | .call addr nargs => callBody addr nargs
  | .ret => retBody
  | .init => initBody

/-- Every instruction but HALT is its pseudocode, a fault being reported at its opcode word. -/
theorem exec_eq_body {i : Instr} (h : i ≠ .halt) (s : State) :
    exec i s = (body i s).finish (instrStart i.length s) := by
  cases i <;> first | exact absurd rfl h | rfl

/-- Instructions whose pseudocode touches something besides the frame. -/
def leavesFrame : Instr → Bool
  | .gstore _ | .print => true
  | _ => false

/-- All but GSTORE and PRINT touch only the frame. -/
theorem body_frame {i : Instr} (h : leavesFrame i = false) (s : State) : SameButFrame s (body i s).state := by
  cases i with
  | iadd => exact binary_frame _ s
  | isub => exact binary_frame _ s
  | imul => exact binary_frame _ s
  | ilt => exact binary_frame _ s
  | ieq => exact binary_frame _ s
  | br addr => exact setIp_frame addr s
  | brt addr => exact popBranch_frame _ addr s
  | brf addr => exact popBranch_frame _ addr s
  | iconst k => exact push_frame k s
  | load off => exact bind_frame (frameSlot_frame off s) fun _ t => push_frame _ t
  | store off =>
    exact bind_frame (pop_frame s) fun _ t => bind_frame (frameSlot_frame off t) fun _ t => stackWrite_frame _ _ t
  | gload off => exact bind_frame (globalSlot_frame off s) fun _ t => push_frame _ t
  | gstore off => cases h
  | print => cases h
  | pop => exact bind_frame (pop_frame s) fun _ t => .refl t
  | halt => exact .refl s
  | call addr nargs => exact callBody_frame addr nargs s
  | ret => exact retBody_frame s
  | init => exact initBody_frame s

/-- Everything GSTORE's pseudocode can leave (R134). -/
theorem body_gstore_state (off : Word) (s : State) :
    (body (.gstore off) s).state = s ∨ (body (.gstore off) s).state = { s with sp := s.sp - 1 } ∨
      (0 ≤ s.sp.toInt ∧ 0 ≤ off.toInt ∧ off.toInt < s.gcount.toInt ∧ (body (.gstore off) s).state =
        { s with sp := s.sp - 1, globals := s.globals.write off.toInt.toNat (stackRead s s.sp.toInt.toNat) }) := by
  simp only [body]
  rcases pop_cases s with ⟨h0, h⟩ | ⟨_, h⟩ <;> rw [h]
  · simp only [Flow.bind_go, globalSlot]
    rcases globalIdx_cases off { s with sp := s.sp - 1 } with ⟨hg, h⟩ | ⟨_, h⟩ <;> rw [h]
    · exact .inr (.inr ⟨h0, hg.1, hg.2, rfl⟩)
    · exact .inr (.inl rfl)
  · exact .inl rfl

/-- Everything PRINT's pseudocode can leave (R140). -/
theorem body_print (s : State) :
    (0 ≤ s.sp.toInt ∧ body .print s = .go () { s with
      sp := s.sp - 1, events := s.events ++ [.output (stackRead s s.sp.toInt.toNat)] }) ∨
    (s.sp.toInt < 0 ∧ body .print s = .trap .stackUnderflow s.sp s) := by
  simp only [body]
  rcases pop_cases s with ⟨h0, h⟩ | ⟨h0, h⟩ <;> rw [h]
  · exact .inl ⟨h0, rfl⟩
  · exact .inr ⟨h0, rfl⟩

/-- What ends an instruction: it went on, or it took a fault. -/
theorem exec_next_cases {i : Instr} {s t : State} (hi : i ≠ .halt) (h : exec i s = .next t) :
    body i s = .go () t ∨ ∃ c info u, body i s = .trap c info u ∧ t = takeFault c info (instrStart i.length s) u := by
  rw [exec_eq_body hi] at h
  cases hb : body i s with
  | go a u => rw [hb] at h; cases h; exact .inl rfl
  | trap c info u => rw [hb] at h; cases h; exact .inr ⟨c, info, u, rfl, rfl⟩

/-- Everything a step that answers a next state can have done: a fault in fetch or decode, or an instruction that began
as `fetch` left it. -/
theorem step_cases {s t : State} (h : step s = .next t) :
    s.status = .running ∧
      ((∃ c info u, fetch s = .trap c info u ∧ t = takeFault c info s.ip u) ∨
       (∃ i u v, fetch s = .go i u ∧ exec i u = .next v ∧ t = if v.status = .running then tracePost v else v)) := by
  unfold step at h
  split at h <;> try cases h
  next hs =>
  refine ⟨hs, ?_⟩
  cases hf : fetch s with
  | trap c info u => rw [hf] at h; cases h; exact .inl ⟨c, info, u, rfl, rfl⟩
  | go i u =>
    rw [hf] at h
    cases he : exec i u with
    | next v => simp only [he, retire] at h; cases h; exact .inr ⟨i, u, v, rfl, he, rfl⟩
    | fault r => simp [he, retire] at h
    | refused r => simp [he, retire] at h

/-- `Operand` moves `ip` and nothing else. -/
theorem operand_state (s : State) : (operand s).state = { s with ip := (operand s).state.ip } := by
  cases h : imemAt s s.ip.toInt with
  | none => rw [operand_trap h]; rfl
  | some w => rw [operand_go h]; rfl

/-- The decode phase moves `ip` and nothing else (R96, R97). -/
theorem decodePhase_state (w : Word) (s : State) :
    (decodePhase w s).state = { s with ip := (decodePhase w s).state.ip } := by
  have key : ∀ {α : Type} (k : Word → State → Flow α), (∀ a t, (k a t).state = { t with ip := (k a t).state.ip }) →
      ∀ t : State, ((operand t).bind k).state = { t with ip := ((operand t).bind k).state.ip } := by
    intro α k hk t
    have ho := operand_state t
    cases h : operand t with
    | go a u =>
      rw [h] at ho
      simp only [Flow.bind_go]
      simp only [Flow.state_go] at ho
      rw [hk a u, ho]
    | trap c info u => rw [h] at ho; simpa using ho
  unfold decodePhase
  split
  · rfl
  · split
    · rfl
    · exact key _ (fun _ _ => rfl) s
    · exact key _ (fun _ t => key _ (fun _ _ => rfl) t) s

/-- Fetch and decode change `ip` and, with tracing on, add one record; HALT is found with nothing changed (R91). -/
theorem fetch_state (s : State) :
    (fetch s).state = { s with ip := (fetch s).state.ip, events := (fetch s).state.events } ∧
      (fetch s).state.out = s.out := by
  unfold fetch
  split
  · exact ⟨rfl, rfl⟩
  · next w hw =>
    split
    · exact ⟨rfl, rfl⟩
    · have := decodePhase_state w { tracePre s.ip w s with ip := (tracePre s.ip w s).ip + 1 }
      dsimp only
      rw [this]
      refine ⟨?_, ?_⟩
      · by_cases h : s.traceEn <;> simp [tracePre, emit, h]
      · exact tracePre_out s.ip w s

end Sys2Proof.Machine
end

