-- ==== Sys2Proof/Laws/PerInstr.lean ====
section
/-!
SUPPORT. Facts about every instruction as syntax, one lemma per constructor of Instr.
-/

namespace Sys2Proof.Laws

/-- An instruction is encoded in one opcode word and as many operand words as its arity, three words at most
(spec/30_encoding.md R70, R74, R76), and its opcode word is the first. -/
def EncodedLength.Statement (i : Instr) : Prop :=
  (encode i).length = 1 + i.mnemonic.arity ∧ i.length = (encode i).length ∧ i.length ≤ 3 ∧
    (encode i).head? = some (opcodeWord i.mnemonic)

theorem EncodedLength.iadd : EncodedLength.Statement .iadd := ⟨rfl, rfl, show (1 : Nat) ≤ 3 by decide, rfl⟩
theorem EncodedLength.isub : EncodedLength.Statement .isub := ⟨rfl, rfl, show (1 : Nat) ≤ 3 by decide, rfl⟩
theorem EncodedLength.imul : EncodedLength.Statement .imul := ⟨rfl, rfl, show (1 : Nat) ≤ 3 by decide, rfl⟩
theorem EncodedLength.ilt : EncodedLength.Statement .ilt := ⟨rfl, rfl, show (1 : Nat) ≤ 3 by decide, rfl⟩
theorem EncodedLength.ieq : EncodedLength.Statement .ieq := ⟨rfl, rfl, show (1 : Nat) ≤ 3 by decide, rfl⟩
theorem EncodedLength.br (addr : Word) : EncodedLength.Statement (.br addr) := ⟨rfl, rfl, show (2 : Nat) ≤ 3 by decide, rfl⟩
theorem EncodedLength.brt (addr : Word) : EncodedLength.Statement (.brt addr) := ⟨rfl, rfl, show (2 : Nat) ≤ 3 by decide, rfl⟩
theorem EncodedLength.brf (addr : Word) : EncodedLength.Statement (.brf addr) := ⟨rfl, rfl, show (2 : Nat) ≤ 3 by decide, rfl⟩
theorem EncodedLength.iconst (k : Word) : EncodedLength.Statement (.iconst k) := ⟨rfl, rfl, show (2 : Nat) ≤ 3 by decide, rfl⟩
theorem EncodedLength.load (off : Word) : EncodedLength.Statement (.load off) := ⟨rfl, rfl, show (2 : Nat) ≤ 3 by decide, rfl⟩
theorem EncodedLength.store (off : Word) : EncodedLength.Statement (.store off) := ⟨rfl, rfl, show (2 : Nat) ≤ 3 by decide, rfl⟩
theorem EncodedLength.gload (off : Word) : EncodedLength.Statement (.gload off) := ⟨rfl, rfl, show (2 : Nat) ≤ 3 by decide, rfl⟩
theorem EncodedLength.gstore (off : Word) : EncodedLength.Statement (.gstore off) := ⟨rfl, rfl, show (2 : Nat) ≤ 3 by decide, rfl⟩
theorem EncodedLength.print : EncodedLength.Statement .print := ⟨rfl, rfl, show (1 : Nat) ≤ 3 by decide, rfl⟩
theorem EncodedLength.pop : EncodedLength.Statement .pop := ⟨rfl, rfl, show (1 : Nat) ≤ 3 by decide, rfl⟩
theorem EncodedLength.halt : EncodedLength.Statement .halt := ⟨rfl, rfl, show (1 : Nat) ≤ 3 by decide, rfl⟩
theorem EncodedLength.call (addr nargs : Word) : EncodedLength.Statement (.call addr nargs) := ⟨rfl, rfl, show (3 : Nat) ≤ 3 by decide, rfl⟩
theorem EncodedLength.ret : EncodedLength.Statement .ret := ⟨rfl, rfl, show (1 : Nat) ≤ 3 by decide, rfl⟩
theorem EncodedLength.init : EncodedLength.Statement .init := ⟨rfl, rfl, show (1 : Nat) ≤ 3 by decide, rfl⟩

end Sys2Proof.Laws
end

