-- ==== Sys2Proof/Tests/Slice0.lean ====
section
/-!
SUPPORT. Tests. Expected results are the vectors of spec/95_test_vectors.md (their ids stand in the docstrings) or words
written out by hand from the encodings of spec/30_encoding.md. Then, for every obligation with hypotheses, a witness:
concrete states and operands that meet them, one for each clause, at the ends of its range.
-/

namespace Sys2Proof.Tests

open Sys2Proof.Machine Sys2Proof.Claims

/-- The memory listing `ws` from index `i` up. -/
def listed : Nat → List Word → Memory
  | _, [] => []
  | i, w :: ws => (i, w) :: listed (i + 1) ws

/-- A running core at `ip = 0` with a program, a stack and an `fp`. -/
def at0 (program stack : List Word) (fp : Word) : State :=
  { State.reset with
    status := .running, imem := Memory.ofWords 0 program, icount := BitVec.ofNat 32 program.length,
    stack := listed 0 stack, sp := BitVec.ofInt 32 (stack.length - 1), fp := fp }

/-- A running core with a given `sp` and `fp` and no slot written. -/
def spFp (sp fp : Word) : State := { State.reset with status := .running, sp := sp, fp := fp }

/-- A running core with two globals, 5 and 6. -/
def withGlobals (program stack : List Word) : State :=
  { at0 program stack (-1) with gcount := 2, globals := [(0, 5), (1, 6)] }

/-- The state an outcome answers. -/
def next? : Outcome → Option State
  | .next s => some s
  | .fault _ => none
  | .refused _ => none

/-- The registers and the written slots of `Stack`, lowest first. -/
def frame (s : State) : Int × Int × Int × List Int :=
  (s.ip.toInt, s.sp.toInt, s.fp.toInt, s.stack.map fun c => c.2.toInt)

/-- The frame after one step that left the core running. -/
def ran (s : State) : Option (Int × Int × Int × List Int) :=
  (next? (step s)).bind fun t => if t.status = .running then some (frame t) else none

/-- Cause, `fault_ip`, `fault_info`, `ip`, `sp` after one step that faulted. -/
def faulted (s : State) : Option (Cause × Option Int × Option Int × Int × Int) :=
  (next? (step s)).bind fun t =>
    if t.status = .faulted then
      some (t.cause, t.faultIp.map BitVec.toInt, t.faultInfo.map BitVec.toInt, t.ip.toInt, t.sp.toInt)
    else none

/-! ### WellFormed: an ill-formed term for each check -/

theorem test_wellFormed_instruction : (Instr.call 9 2).wellFormed = true := by decide
theorem test_wellFormed_image : (LoadImage.mk [9, 1, 16] 0 0).wellFormed = true := by decide
/-- The configuration in force, then a narrow word, a stack too large for its words, and two mnemonics with one number. -/
theorem test_wellFormed_config : config.wellFormed = true := by decide
theorem test_illFormed_config :
    Config.widthOk { config with wordBits := 31 } = false ∧
    Config.capacityOk { config with stackCapacity := 2147483648 } = false ∧
    Config.opcOk { config with opc := fun m => if m = .init then 18 else config.opc m } = false := by decide
/-- V60-1c: the empty program. -/
theorem test_illFormed_size : (LoadImage.mk [] 0 0).sizeOk = false := by decide
/-- V60-1 and V60-1b: an entry past the program, a negative entry. -/
theorem test_illFormed_entry :
    (LoadImage.mk [9, 1, 16] 3 0).entryOk = false ∧ (LoadImage.mk [9, 1, 16] (-1) 0).entryOk = false := by decide
theorem test_illFormed_gcount : (LoadImage.mk [9, 1, 16] 0 (-1)).gcountOk = false := by decide

/-! ### Decoding: words written out bit by bit -/

/-- V30-1. -/
theorem test_decode_iadd : decode [0b00000000000000000000000000000001] = .ok (.iadd, []) := rfl
theorem test_decode_isub : decode [0b10] = .ok (.isub, []) := rfl
theorem test_decode_imul : decode [0b11] = .ok (.imul, []) := rfl
theorem test_decode_ilt : decode [0b100] = .ok (.ilt, []) := rfl
theorem test_decode_ieq : decode [0b101] = .ok (.ieq, []) := rfl
/-- V30-5. -/
theorem test_decode_br : decode [0b110, 0b1100] = .ok (.br 12, []) := rfl
theorem test_decode_brt : decode [0b111, 0b1001] = .ok (.brt 9, []) := rfl
theorem test_decode_brf : decode [0b1000, 0b10001] = .ok (.brf 17, []) := rfl
/-- V30-2. -/
theorem test_decode_iconst :
    decode [0b1001, 0b11111111111111111111111111111111] = .ok (.iconst (-1), []) := rfl
/-- V30-3. -/
theorem test_decode_load : decode [0b1010, 0b11111111111111111111111111111100] = .ok (.load (-4), []) := rfl
theorem test_decode_store : decode [0b1011, 1] = .ok (.store 1, []) := rfl
theorem test_decode_gload : decode [0b1100, 1] = .ok (.gload 1, []) := rfl
theorem test_decode_gstore : decode [0b1101, 0, 16] = .ok (.gstore 0, [16]) := rfl
theorem test_decode_print : decode [0b1110] = .ok (.print, []) := rfl
theorem test_decode_pop : decode [0b1111] = .ok (.pop, []) := rfl
/-- V30-6. -/
theorem test_decode_halt : decode [0b10000] = .ok (.halt, []) := rfl
/-- V30-4. -/
theorem test_decode_call : decode [0b10001, 0b1001, 0b10] = .ok (.call 9 2, []) := rfl
theorem test_decode_ret : decode [0b10010] = .ok (.ret, []) := rfl
theorem test_decode_init : decode [0b10011] = .ok (.init, []) := rfl
/-- V30-7 to V30-10. -/
theorem test_decode_unknown :
    decode [0] = .error (.unknownOpcode 0) ∧ decode [20] = .error (.unknownOpcode 20) ∧
    decode [0x00010009, 1] = .error (.unknownOpcode 65545) ∧ decode [-1] = .error (.unknownOpcode (-1)) :=
  ⟨rfl, rfl, rfl, rfl⟩
/-- V30-11. -/
theorem test_decode_missing :
    decode [9] = .error (.missingOperand 0) ∧ decode [17, 5] = .error (.missingOperand 1) := ⟨rfl, rfl⟩
/-- The sequential decode of the adjusted S2 program. -/
theorem test_disassemble :
    disassemble 9 0 [9, 1, 7, 9, 9, 99, 14, 6, 12, 9, 1, 14, 16] =
      [(0, .iconst 1), (2, .brt 9), (4, .iconst 99), (6, .print), (7, .br 12), (9, .iconst 1), (11, .print), (12, .halt)] :=
  rfl
theorem test_decodeTableWord :
    decodeTableWord 32 1 = some .iadd ∧ decodeTableWord 32 17 = some (.call 0 0) ∧
    decodeTableWord 96 (17 + 9 * 2 ^ 32 + 2 * 2 ^ 64) = some (.call 9 2) ∧ decodeTableWord 32 0 = none := by decide
theorem test_withFetchWord :
    instructionWords (State.reset.withFetchWord 64 (6 + 5 * 2 ^ 32)) = [6, 5, 0] ∧
    ran (State.reset.withFetchWord 64 (6 + 5 * 2 ^ 32)) = some (5, -1, -1, []) := by decide

/-! ### One step of each instruction -/

/-- V41-1: the dead slot keeps the right operand. -/
theorem test_iadd : ran (at0 [1] [3, 4] (-1)) = some (1, 0, -1, [7, 4]) := by decide
/-- V41-11. -/
theorem test_iadd_wraps : ran (at0 [1] [2147483647, 1] (-1)) = some (1, 0, -1, [-2147483648, 1]) := by decide
/-- V41-2. -/
theorem test_isub : ran (at0 [2] [3, 4] (-1)) = some (1, 0, -1, [-1, 4]) := by decide
/-- V41-3 and V41-16. -/
theorem test_imul : ran (at0 [3] [-3, 4] (-1)) = some (1, 0, -1, [-12, 4]) ∧
    ran (at0 [3] [46341, 46341] (-1)) = some (1, 0, -1, [-2147479015, 46341]) := by decide
/-- V41-6, V41-7. -/
theorem test_ilt : ran (at0 [4] [4, 4] (-1)) = some (1, 0, -1, [0, 4]) ∧
    ran (at0 [4] [-1, 0] (-1)) = some (1, 0, -1, [1, 0]) := by decide
/-- V41-9, V41-10. -/
theorem test_ieq : ran (at0 [5] [4, 4] (-1)) = some (1, 0, -1, [1, 4]) ∧
    ran (at0 [5] [4, -4] (-1)) = some (1, 0, -1, [0, -4]) := by decide
/-- V41-18. -/
theorem test_alu_underflow : faulted (at0 [1] [5] (-1)) = some (.stackUnderflow, some 0, some (-1), 1, -1) := by decide
/-- V42-1, V42-10. -/
theorem test_br : ran (at0 [6, 5] [] (-1)) = some (5, -1, -1, []) ∧
    ran (at0 [6, -1] [] (-1)) = some (-1, -1, -1, []) := by decide
/-- V42-2, V42-3, V42-6. -/
theorem test_brt : ran (at0 [7, 5] [1] (-1)) = some (5, -1, -1, [1]) ∧
    ran (at0 [7, 5] [0] (-1)) = some (2, -1, -1, [0]) ∧ ran (at0 [7, 5] [2] (-1)) = some (2, -1, -1, [2]) := by decide
/-- V42-4, V42-5, V42-6b. -/
theorem test_brf : ran (at0 [8, 5] [0] (-1)) = some (5, -1, -1, [0]) ∧
    ran (at0 [8, 5] [1] (-1)) = some (2, -1, -1, [1]) ∧ ran (at0 [8, 5] [-1] (-1)) = some (2, -1, -1, [-1]) := by decide
/-- V43-3. -/
theorem test_iconst :
    ran (at0 [9, 0x80000000] [5] (-1)) = some (2, 1, -1, [5, -2147483648]) := by decide
/-- V43-4, V43-5: the 1000th push succeeds, the next faults. -/
theorem test_iconst_full :
    ran { at0 [9, 1] [] (-1) with sp := 998 } = some (2, 999, -1, [1]) ∧
    faulted { at0 [9, 1] [] (-1) with sp := 999 } = some (.stackOverflow, some 0, some 999, 2, 999) := by decide
/-- V43-9, V43-10 (slot 3 is dead). -/
theorem test_load : ran (at0 [10, -1] [10, 20, 30, 40] 1) = some (2, 4, 1, [10, 20, 30, 40, 10]) ∧
    ran { at0 [10, 2] [10, 20, 30, 40] 1 with sp := 2 } = some (2, 3, 1, [10, 20, 30, 40]) := by decide
/-- V43-16: the index is not wrapped before the check. -/
theorem test_load_index : faulted (at0 [10, 2147483647] [1] 2147483647) =
    some (.stackIndexOutOfBounds, some 0, some (-2), 2, 0) := by decide
/-- V43-11: a slot nothing has written reads as its free value. -/
theorem test_load_unwritten : (next? (step (at0 [10, 3] [10, 20, 30] 1))).map (fun t => (t.sp.toInt, stackRead t 3)) =
    some (3, Config.stackAtReset 0 4) := rfl
/-- V43-17. -/
theorem test_store : ran (at0 [11, 1] [10, 20, 30, 99] 1) = some (2, 2, 1, [10, 20, 99, 99]) := by decide
/-- V43-20, V43-21. -/
theorem test_store_faults :
    faulted (at0 [11, -3] [10, 20, 30, 99] 1) = some (.stackIndexOutOfBounds, some 0, some (-2), 2, 2) ∧
    faulted (at0 [11, -3] [] 1) = some (.stackUnderflow, some 0, some (-1), 2, -1) := by decide
/-- V43-22, V43-24. -/
theorem test_gload : ran (withGlobals [12, 1] []) = some (2, 0, -1, [6]) ∧
    faulted (withGlobals [12, 2] []) = some (.globalIndexOutOfBounds, some 0, some 2, 2, -1) := by decide
/-- V43-28, V43-29. -/
theorem test_gstore : (next? (step (withGlobals [13, 0] [1, 77]))).map State.globals = some [(0, 77), (1, 6)] ∧
    faulted (withGlobals [13, 2] [1, 77]) = some (.globalIndexOutOfBounds, some 0, some 2, 2, 0) := by decide
/-- V44-2, V44-3. -/
theorem test_print : (next? (step (at0 [14] [3, -5] (-1)))).map State.out = some [-5] ∧
    faulted (at0 [14] [] (-1)) = some (.stackUnderflow, some 0, some (-1), 1, -1) := by decide
/-- V44-4. -/
theorem test_pop : ran (at0 [15] [4, 9] (-1)) = some (1, 0, -1, [4, 9]) := by decide
/-- V44-6. -/
theorem test_halt : (next? (step (at0 [16] [1, 2, 3] (-1)))).map (fun t => (t.status, frame t)) =
    some (.halted, 0, 2, -1, [1, 2, 3]) := by decide
/-- V45-1. -/
theorem test_call : ran { at0 [0, 0, 0, 0, 17, 9, 2, 0, 0, 16] [5, 7] (-1) with ip := 4 } =
    some (9, 4, 4, [5, 7, 2, -1, 7]) := by decide
/-- V45-4: the third push faults. -/
theorem test_call_full :
    faulted { at0 [17, 5, 0] [] (-1) with sp := 997 } = some (.stackOverflow, some 0, some 999, 3, 999) ∧
    (next? (step { at0 [17, 5, 0] [] (-1) with sp := 997 })).map State.stack = some [(998, 0), (999, -1)] := by decide
/-- V45-20, V45-23 (the callee pushed nothing). -/
theorem test_ret : ran (at0 [18] [5, 7, 2, -1, 7, 12] 4) = some (7, 0, -1, [12, 7, 2, -1, 7, 12]) ∧
    ran (at0 [18] [5, 7, 2, -1, 7] 4) = some (7, 0, -1, [7, 7, 2, -1, 7]) := by decide
/-- V45-26, V45-28. -/
theorem test_ret_faults :
    faulted (at0 [18] [5, 3, -1, 7, 12] 3) = some (.spOutOfRange, some 0, some (-3), 7, 0) ∧
    faulted (at0 [18] [12] 1000) = some (.spOutOfRange, some 0, some 1000, 1, -1) := by decide
/-- V45-7, and V45-9: the ascending copy smears. -/
theorem test_init : ran (at0 [19, 16] [100, 11, 22, 1, 2] 0) = some (1, 0, 0, [11, 22, 22, 1, 2]) ∧
    ran (at0 [19, 16] [11, 22, 33, 1, 3] 1) = some (1, -1, 1, [11, 11, 11, 11, 3]) := by decide
/-- V45-10, V45-11. -/
theorem test_init_edges :
    faulted (at0 [19, 16] [11, 1, 3] 0) = some (.stackIndexOutOfBounds, some 0, some (-2), 1, 0) ∧
    ran (at0 [19, 16] [11, 1, -2] 0) = some (1, 2, 0, [11, 1, -2]) := by decide

/-! ### Fetch, decode, reset, trace -/

/-- V60-1b, V40-4, V40-5. -/
theorem test_fetch_decode_faults :
    faulted { at0 [9, 1, 16] [] (-1) with ip := -1 } = some (.ipOutOfBounds, some (-1), some (-1), -1, -1) ∧
    faulted (at0 [20] [] (-1)) = some (.unknownOpcode, some 0, some 20, 1, -1) ∧
    faulted (at0 [17, 5] [] (-1)) = some (.operandOutOfBounds, some 0, some 2, 2, -1) :=
  ⟨by decide, by decide, by decide⟩
/-- V70-1, V70-3: reset, `run()`, and no second `run()`. -/
theorem test_reset :
    frame (construct (.mk [9, 3, 9, 4, 1, 14, 16] 0 2) State.reset) = (0, -1, -1, []) ∧
    (runRequest (construct (.mk [16] 0 0) State.reset)).status = .running ∧
    (runRequest { State.reset with status := .halted }).status = .halted := by decide
/-- Decision D19: all state is read back in READY and after a stop, and not while the core runs; a dump only after a stop. -/
theorem test_readBack :
    readBack State.reset = some State.reset ∧ readBack (at0 [16] [] (-1)) = none ∧
    (readBack { State.reset with status := .halted }).isSome = true ∧ requestDataDump State.reset = none := by decide
/-- V70-4: PRINT's events. -/
theorem test_trace_print :
    (next? (step { at0 [14] [7] (-1) with traceEn := true })).map State.events =
      some [.record (.disasm 0 14 []), .output 7, .record (.stackDump [])] := by decide
/-- V70-5: an operand outside `IMem` contributes nothing. -/
theorem test_trace_edge :
    (next? (step { at0 [9] [] (-1) with traceEn := true })).map State.events = some [.record (.disasm 0 9 [])] := by decide
/-- V70-6. -/
theorem test_dumps :
    dataDump { State.reset with gcount := 3, globals := [(0, 5), (1, -1)] } = .dataDump [(0, 5), (2, 0)] ∧
    codeDump (at0 [9, -4, 16] [] (-1)) = .codeDump [(0, 9), (2, 16)] := by decide
/-- V70-4: the text of a disassembly's fields and of a stack dump. -/
theorem test_trace_text : disasmFields 0 9 [3] = ["0000", "ICONST", "3"] ∧ stackDumpText [(0, 3), (1, 4)] = "0=3,1=4" := by
  decide

/-! ### Witnesses of the obligations' hypotheses -/

/-- Each outcome of the instruction in hand, as a next state that exists. -/
def answers (o : Outcome) (p : State → Bool) : Bool := ((next? o).map p).getD false

theorem test_witness_StepRunsTheDecodedInstruction :
    (at0 [9, 42] [] (-1)).status = .running ∧
    decode (instructionWords (at0 [9, 42] [] (-1))) = .ok (.iconst 42, []) ∧
    decode (instructionWords (at0 [16] [1] (-1))) = .ok (.halt, []) := ⟨rfl, rfl, rfl⟩
theorem test_witness_FetchOutsideTheProgramFaults :
    (at0 [9, 1, 16] [] (-1)).status = .running ∧
    ({ at0 [9, 1, 16] [] (-1) with ip := -1 } : State).ip.toInt < 0 ∧
    (at0 [9, 1, 16] [] (-1)).icount.toInt ≤ ({ at0 [9, 1, 16] [] (-1) with ip := 3 } : State).ip.toInt := by decide
theorem test_witness_UnknownOpcodeFaultsPastTheOpcodeWord :
    imemAt (at0 [0] [] (-1)) 0 = some 0 ∧ (0 : Word).toInt ≤ 0 ∧ imemAt (at0 [20] [] (-1)) 0 = some 20 ∧
    20 ≤ (20 : Word).toInt ∧ 1 ≤ (1 : Word).toInt ∧ (19 : Word).toInt ≤ 19 := by decide
theorem test_witness_MissingOperandFaultsBeforeExecute :
    imemAt (at0 [9] [] (-1)) 0 = some (opcodeWord .iconst) ∧ 0 < Mnemonic.iconst.arity ∧
    (0 : Int) + 1 + (0 : Nat) = (at0 [9] [] (-1)).icount.toInt ∧
    imemAt (at0 [17, 5] [] (-1)) 0 = some (opcodeWord .call) ∧ 1 < Mnemonic.call.arity ∧
    (0 : Int) + 1 + (1 : Nat) = (at0 [17, 5] [] (-1)).icount.toInt := by decide
/-- One next state each: HALTED, FAULTED with a report, RUNNING after PRINT and after another instruction. -/
theorem test_witness_steps :
    answers (step (at0 [16] [1] (-1))) (fun t => t.status == .halted) = true ∧
    (at0 [16] [1] (-1)).faultReportOk ∧
    answers (step (at0 [1] [5] (-1))) (fun t => t.status == .faulted) = true ∧
    answers (step (at0 [14] [7] (-1))) (fun t => t.status == .running) = true ∧
    decode (instructionWords (at0 [14] [7] (-1))) = .ok (.print, []) := by
  refine ⟨by decide, by decide, by decide, by decide, rfl⟩
theorem test_witness_EveryStepKeepsTheInvariant :
    (withGlobals [13, 0] [1, 77]).Inv ∧ (next? (step (withGlobals [13, 0] [1, 77]))).isSome = true := by decide
theorem test_witness_ResetLeavesTheStatedValues : [(9 : Word), 3, 16].length < 2 ^ 31 := by decide
/-- One row for each cause a fault has, numbered 1 to 8. -/
theorem test_witness_TakingAFaultWritesOnlyTheReport :
    (Cause.ipOutOfBounds, 1) ∈ causeTable ∧ (Cause.spOutOfRange, 8) ∈ causeTable ∧
    causeTable.map (fun r => r.2) = [1, 2, 3, 4, 5, 6, 7, 8] := by decide
theorem test_witness_RunRequestStartsOnlyFromReady :
    State.reset.status = .ready ∧ ({ State.reset with status := .faulted } : State).status ≠ .ready := by decide
theorem test_witness_DumpsListTheirSlotsInOrder :
    ({ State.reset with status := .halted } : State).status = .halted ∧
    ({ State.reset with status := .faulted } : State).status = .faulted := by decide
theorem test_witness_InstructionsRaiseOnlyTheirListedCauses :
    (spFp (-1) (-1)).spInRange ∧ (spFp 999 0).spInRange ∧
    answers (exec .ret (spFp (-1) (-1))) (fun t => t.status == .faulted) = true ∧
    answers (exec (.load 0) (spFp 999 0)) (fun t => t.status == .faulted) = true := by decide
theorem test_witness_OnlyCallAndRetWriteTheFramePointer :
    (next? (exec .init (at0 [19] [8, 1, 0] 0))).isSome = true := by decide
theorem test_witness_SpecialRegistersFrame :
    (spFp (-1) (-1)).status = .running ∧ (next? (exec .pop (spFp 0 0))).isSome = true := by decide
theorem test_witness_FormsThatStoreNoSlotKeepTheStack :
    storesNoSlot (.br 5) = true ∧ storesNoSlot .halt = true ∧ storesNoSlot (.gstore 0) = true ∧
    (next? (exec (.gstore 0) (withGlobals [] [1]))).isSome = true := by decide
theorem test_witness_SingleStoresTouchOneSlot :
    storedSlot .iadd (at0 [] [3, 4] 0) = some 0 ∧ storedSlot (.iconst 1) (spFp 998 0) = some 999 ∧
    storedSlot (.store 2) (at0 [] [3, 4] 1) = some 3 ∧ storedSlot .ret (at0 [] [5, 7, 2, -1, 7, 12] 4) = some 0 ∧
    (next? (exec .ret (at0 [] [5, 7, 2, -1, 7, 12] 4))).isSome = true := by decide
theorem test_witness_CallTouchesThreeSlots :
    -1 ≤ (spFp (-1) 0).sp.toInt ∧ (next? (exec (.call 5 0) (spFp (-1) 0))).isSome = true ∧
    ¬((spFp (-1) 0).sp.toInt + 1 ≤ (3 : Nat) ∧ ((3 : Nat) : Int) ≤ (spFp (-1) 0).sp.toInt + 3) := by decide
theorem test_witness_InitTouchesOnlyTheArgumentSlots :
    (next? (exec .init (at0 [] [100, 11, 22, 1, 2] 0))).isSome = true ∧
    ¬((0 : Int) ≤ (2 : Nat) ∧ ((2 : Nat) : Int) < 0 + (top (at0 [] [100, 11, 22, 1, 2] 0)).toInt) := by decide
theorem test_witness_OnlyGstoreWritesGlobals :
    (next? (exec (.gstore 0) (withGlobals [] [1]))).isSome = true ∧ (1 : Nat) ≠ (0 : Word).toInt.toNat := by decide
theorem test_witness_AluInstructionsReplaceTheTopTwoWords :
    aluTable.map (fun r => r.1) = [.iadd, .isub, .imul, .ilt, .ieq] ∧
    1 ≤ (spFp 1 0).sp.toInt ∧ (spFp 999 0).sp.toInt < 1000 ∧ (spFp 0 0).sp.toInt = 0 ∧ (spFp (-1) 0).sp.toInt < 0 := by
  decide
theorem test_witness_ArithmeticIsExactWhenTheResultFits :
    exactTable.map (fun r => r.1) = [.iadd, .isub, .imul] ∧
    (second (at0 [] [2147483646, 1] 0)).toInt + (top (at0 [] [2147483646, 1] 0)).toInt = 2147483647 ∧
    (second (at0 [] [-2147483647, 1] 0)).toInt - (top (at0 [] [-2147483647, 1] 0)).toInt = -2147483648 ∧
    1 ≤ (at0 [] [2147483646, 1] 0).sp.toInt := by decide
theorem test_witness_ComparisonsPushExactlyZeroOrOne :
    1 ≤ (at0 [] [0, 1] 0).sp.toInt ∧ (at0 [] [0, 1] 0).sp.toInt < 1000 ∧ top (at0 [] [0, 1] 0) = 1 ∧
    top (at0 [] [1, 0] 0) = 0 := by decide
theorem test_witness_StraightLineDepthLaw :
    (∀ i ∈ [Instr.iconst 2, .iconst 3, .imul, .pop], straightLine i = true) ∧ (spFp (-1) (-1)).spInRange ∧
    (execAll [.iconst 2, .iconst 3, .imul, .pop] (spFp (-1) (-1))).isSome = true := by decide
theorem test_witness_branches :
    0 ≤ (at0 [] [1] 0).sp.toInt ∧ top (at0 [] [1] 0) = 1 ∧ top (at0 [] [0] 0) = 0 ∧ top (at0 [] [2] 0) = 2 ∧
    (spFp (-1) 0).sp.toInt < 0 := by decide
/-- ICONST, and the stack side of LOAD and GLOAD. -/
theorem test_witness_pushes :
    -1 ≤ (spFp (-1) 0).sp.toInt ∧ (spFp 998 0).sp.toInt < 999 ∧ 999 ≤ (spFp 999 0).sp.toInt := by decide
/-- LOAD and STORE: the first and last slot, and the indices just outside. -/
theorem test_witness_frameIndices :
    (spFp 0 1).fp.toInt + (-1 : Word).toInt = 0 ∧ (spFp 0 1).fp.toInt + (998 : Word).toInt = 999 ∧
    (spFp 0 1).fp.toInt + (-2 : Word).toInt < 0 ∧ 1000 ≤ (spFp 0 1).fp.toInt + (999 : Word).toInt ∧
    0 ≤ (spFp 0 1).sp.toInt := by decide
/-- GLOAD and GSTORE: the first and last global, and the indices just outside. -/
theorem test_witness_globalIndices :
    0 ≤ (0 : Word).toInt ∧ (1 : Word).toInt < (withGlobals [] [1]).gcount.toInt ∧
    (withGlobals [] [1]).gcount.toInt ≤ (2 : Word).toInt ∧ (-1 : Word).toInt < 0 ∧
    0 ≤ (withGlobals [] [1]).sp.toInt := by decide
/-- PRINT and POP. -/
theorem test_witness_pops : 0 ≤ (spFp 0 0).sp.toInt ∧ (spFp (-1) 0).sp.toInt < 0 := by decide
theorem test_witness_HaltStopsAtItsOwnWord :
    (at0 [16] [] (-1)).status = .running ∧ imemAt (at0 [16] [] (-1)) 0 = some (opcodeWord .halt) := by decide
theorem test_witness_CallPushesTheLinkageAndJumps :
    -1 ≤ (spFp (-1) 0).sp.toInt ∧ (spFp 996 0).sp.toInt ≤ 996 ∧ (spFp 997 0).sp.toInt = 997 ∧
    (spFp 998 0).sp.toInt = 998 ∧ 999 ≤ (spFp 999 0).sp.toInt := by decide
/-- The saved counts 0 and 2 drop to `d = 1` and `d = -1`; 3 leaves the range below, a negative one above or on the top. -/
theorem test_witness_RetRestoresTheCaller :
    (stackRead (at0 [] [5, 7, 2, -1, 7, 12] 4) (4 - 2)).toInt = 2 ∧ (4 : Int) - 3 - 2 = -1 ∧
    (stackRead (at0 [] [5, 3, -1, 7, 12] 3) (3 - 2)).toInt = 3 ∧ (3 : Int) - 3 - 3 < -1 ∧
    (stackRead (at0 [] [-1000, -1, 7, 12] 2) (2 - 2)).toInt = -1000 ∧ (2 : Int) - 3 - -1000 = 999 ∧
    (stackRead (at0 [] [-999, -1, 7, 12] 2) (2 - 2)).toInt = -999 ∧ (2 : Int) - 3 - -999 < 999 ∧
    (stackRead (at0 [] [-1001, -1, 7, 12] 2) (2 - 2)).toInt = -1001 ∧ 1000 ≤ (2 : Int) - 3 - -1001 ∧
    2 ≤ (at0 [] [-1001, -1, 7, 12] 2).fp.toInt ∧ (spFp 0 999).fp.toInt < 1000 := by decide
theorem test_witness_RetFaultsWithoutAWholeLinkage :
    (spFp (-1) 0).sp.toInt < 0 ∧ (spFp 0 (-2)).fp.toInt < -1 ∧ 1000 ≤ (spFp 0 1000).fp.toInt ∧
    (spFp 0 (-1)).fp.toInt = -1 ∧ (spFp 0 0).fp.toInt = 0 ∧ (spFp 0 1).fp.toInt = 1 ∧ 0 ≤ (spFp 0 1).sp.toInt := by decide
/-- A copy of all words below the pair, to the bottom and to the very top of the stack memory. -/
theorem test_witness_InitCopiesTheArgumentsAndJumps :
    (top (at0 [] [11, 22, 1, 2] 0)).toInt = 2 ∧ (2 : Int) ≤ (at0 [] [11, 22, 1, 2] 0).sp.toInt - 1 ∧
    0 ≤ (at0 [] [11, 22, 1, 2] 0).fp.toInt ∧ (at0 [] [11, 22, 1, 2] 998).fp.toInt + 2 ≤ 1000 := by decide
theorem test_witness_InitWithoutArgumentsIsAnIndirectJump :
    (top (at0 [] [8, 1, 0] (-1))).toInt = 0 ∧ (at0 [] [8, 1, 0] (-1)).sp.toInt - 2 - 0 < 1000 ∧
    (top (at0 [] [1, -1000] 0)).toInt = -1000 ∧ (at0 [] [1, -1000] 0).sp.toInt - 2 - -1000 < 1000 ∧
    (top (at0 [] [1, -1001] 0)).toInt = -1001 ∧ 1000 ≤ (at0 [] [1, -1001] 0).sp.toInt - 2 - -1001 := by decide
theorem test_witness_InitFaultsWhereAnIndexLeavesTheStack :
    (spFp (-1) 0).sp.toInt < 0 ∧ (spFp 0 0).sp.toInt = 0 ∧
    (at0 [] [11, 1, 3] 0).sp.toInt - 1 < (top (at0 [] [11, 1, 3] 0)).toInt ∧
    (top (at0 [] [11, 1, 1] 0)).toInt ≤ (at0 [] [11, 1, 1] 0).sp.toInt - 1 ∧ (at0 [] [11, 1, 1] (-1)).fp.toInt < 0 ∧
    1000 ≤ (at0 [] [11, 1, 1] 1000).fp.toInt ∧
    1000 < (at0 [] [11, 22, 1, 2] 999).fp.toInt + (top (at0 [] [11, 22, 1, 2] 999)).toInt := by decide
/-- A call with both arguments of the stack, and the callee's state just before RET: one word pushed. -/
theorem test_witness_CallThenRetRestoresTheCaller :
    -1 ≤ (at0 [] [5, 7] (-1)).sp.toInt ∧ (2 : Word).toInt ≤ (at0 [] [5, 7] (-1)).depth ∧
    (next? (exec (.call 9 2) (at0 [] [5, 7] (-1)))).map (fun c => (c.fp, c.sp, c.stack)) =
      some (4, 4, [(0, 5), (1, 7), (2, 2), (3, -1), (4, 0)]) ∧
    (at0 [] [5, 7, 2, -1, 0, 12] 4).fp = 4 ∧ (4 : Int) < (at0 [] [5, 7, 2, -1, 0, 12] 4).sp.toInt ∧
    stackRead (at0 [] [5, 7, 2, -1, 0, 12] 4) 2 = 2 ∧ stackRead (at0 [] [5, 7, 2, -1, 0, 12] 4) 3 = -1 ∧
    stackRead (at0 [] [5, 7, 2, -1, 0, 12] 4) 4 = 0 := by decide

end Sys2Proof.Tests
end

section
/-!
SUPPORT. The decoder and the encoder are inverse (spec/30_encoding.md R80): what each format builds from an opcode word
and its operand words is encoded by those words, and a decoded list begins with them.
-/

namespace Sys2Proof.EncodingProofs

open Sys2Proof

/-- An instruction of format F0 is encoded by its opcode word alone (R70). -/
theorem encode_of_shape_f0 {m : Mnemonic} {i : Instr} (h : m.shape = .f0 i) : encode i = [opcodeWord m] := by
  cases m <;> cases h <;> rfl

/-- An instruction of format F1 is encoded by its opcode word and its operand word (R70). -/
theorem encode_of_shape_f1 {m : Mnemonic} {mk : Word → Instr} (h : m.shape = .f1 mk) (a : Word) :
    encode (mk a) = [opcodeWord m, a] := by
  cases m <;> cases h <;> rfl

/-- An instruction of format F2 is encoded by its opcode word and its two operand words in order (R70). -/
theorem encode_of_shape_f2 {m : Mnemonic} {mk : Word → Word → Instr} (h : m.shape = .f2 mk) (a b : Word) :
    encode (mk a b) = [opcodeWord m, a, b] := by
  cases m <;> cases h
  rfl

/-- The decoder reads every instruction back from its own words and leaves the words after them. -/
@[simp] theorem decode_encode_append (i : Instr) (rest : List Word) :
    decode (encode i ++ rest) = .ok (i, rest) := by
  cases i <;> simp [encode, decode, Instr.mnemonic, Instr.operands, Mnemonic.shape]

/-- A list that decodes begins with the words of the decoded instruction: the opcode word is the mnemonic's whole
number, and the format takes exactly its operand words. -/
theorem eq_encode_append_of_decode {ws rest : List Word} {i : Instr} (h : decode ws = .ok (i, rest)) :
    ws = encode i ++ rest := by
  cases ws with
  | nil => simp [decode] at h
  | cons w ws =>
    simp only [decode] at h
    split at h
    · cases h
    next m hm =>
      obtain rfl := ofOpcode_eq_some.mp hm
      split at h <;> cases h
      next hs => simp [encode_of_shape_f0 hs]
      next hs => simp [encode_of_shape_f1 hs]
      next hs => simp [encode_of_shape_f2 hs]

/-- Settles O1: the words of an instruction decode to it, and the opcode match with the three formats gives the
converse. -/
theorem decodeReadsExactlyTheEncodedWords : Obligations.DecodeReadsExactlyTheEncodedWords := by
  intro ws rest i
  constructor
  · exact eq_encode_append_of_decode
  · rintro rfl
    exact decode_encode_append i rest

end Sys2Proof.EncodingProofs
end

section
/-!
SUPPORT. The fetch of a word that is not decoded further (spec/40_pipeline.md R93, R96): the opcode words are exactly the
words 1 to 19, any other word faults in decode, and HALT's word stops the core in the fetch phase.
-/

namespace Sys2Proof.PipelineProofs

open Sys2Proof Sys2Proof.Machine

/-! ### The opcode words -/

/-- Every opcode word lies in 1 to 19 (R73). -/
theorem opcodeWord_toInt_bounds (m : Mnemonic) : 1 ≤ (opcodeWord m).toInt ∧ (opcodeWord m).toInt ≤ 19 := by
  cases m <;> decide

/-- Every number from 1 to 19 is the opcode number of a mnemonic (R73): the model's own check of the map, `opcOk`. -/
theorem exists_opcodeNumber_eq {n : Nat} (h1 : 1 ≤ n) (h19 : n ≤ 19) : ∃ m, opcodeNumber m = n := by
  have hok : config.opcOk = true := by decide
  simp only [Config.opcOk, List.all_eq_true, List.any_eq_true, List.mem_range, beq_iff_eq] at hok
  obtain ⟨m, -, hm⟩ := hok (n - 1) (by omega)
  exact ⟨m, hm.trans (by omega)⟩

/-- Every word from 1 to 19 is an opcode word (R73). -/
theorem exists_opcodeWord_eq {w : Word} (h1 : 1 ≤ w.toInt) (h19 : w.toInt ≤ 19) : ∃ m, opcodeWord m = w := by
  obtain ⟨m, hm⟩ := exists_opcodeNumber_eq (n := w.toInt.toNat) (by omega) (by omega)
  refine ⟨m, ?_⟩
  rw [opcodeWord, hm, ← BitVec.ofInt_natCast, Int.toNat_of_nonneg (by omega), BitVec.ofInt_toInt]

/-- The opcode match fails exactly for the words outside 1 to 19 (R75). -/
theorem ofOpcode_eq_none_iff {w : Word} : Mnemonic.ofOpcode w = none ↔ w.toInt ≤ 0 ∨ 20 ≤ w.toInt := by
  rw [ofOpcode_eq_none]
  constructor
  · intro hw
    by_contra hin
    obtain ⟨m, hm⟩ := exists_opcodeWord_eq (w := w) (by omega) (by omega)
    exact hw m hm.symm
  · rintro hout m rfl
    have := opcodeWord_toInt_bounds m
    omega

/-- The table's entry for an opcode word (R74). -/
@[simp] theorem instructionSetTable_opcodeWord (m : Mnemonic) :
    instructionSetTable (opcodeWord m) = some (m.text, m.arity) := by
  simp [instructionSetTable]

/-! ### The fetch phase and what the step makes of it -/

/-- A word with no mnemonic faults in decode before any operand is fetched (R96). -/
theorem decodePhase_of_unknown {w : Word} (hw : Mnemonic.ofOpcode w = none) (s : State) :
    decodePhase w s = .trap .unknownOpcode w s := by
  simp [decodePhase, hw]

/-- HALT's word is recognised with nothing changed (R93). -/
theorem fetch_of_halt {s : State} (h : imemAt s s.ip.toInt = some (opcodeWord .halt)) : fetch s = .go .halt s := by
  simp [fetch, h]

/-- Any other word is traced, `ip` passes it, and it is decoded (R95, R174). -/
theorem fetch_of_ne_halt {s : State} {w : Word} (h : imemAt s s.ip.toInt = some w) (hw : w ≠ opcodeWord .halt) :
    fetch s = decodePhase w { tracePre s.ip w s with ip := s.ip + 1 } := by
  simp [fetch, h, hw]

/-- A fault raised in fetch or decode ends the step and is reported at the opcode word (R91, R162). -/
theorem step_of_fetch_trap {s t : State} {c : Cause} {info : Word} (hs : s.status = .running)
    (hf : fetch s = .trap c info t) : step s = .next (takeFault c info s.ip t) := by
  simp [step, hs, hf]

/-- A step executes the instruction that was fetched (R91). -/
theorem step_of_fetch_go {s t : State} {i : Instr} (hs : s.status = .running) (hf : fetch s = .go i t) :
    step s = retire (exec i t) := by
  simp [step, hs, hf]

/-- The end of a step adds nothing to a state that has stopped (R175, R176). -/
theorem retire_of_not_running {t : State} (h : t.status ≠ .running) : retire (.next t) = .next t := by
  simp [retire, h]

/-- All that the final trace changes: three records, in this order (R176). -/
theorem traceFinal_eq (s : State) :
    traceFinal s = { s with
      events := s.events ++ if s.traceEn then
        [.record (.disasm s.ip (opcodeWord .halt) []), .record (.stackDump (liveStack s)), .record (dataDump s)]
        else [] } := by
  by_cases h : s.traceEn
  · simp [traceFinal, emit, h]
  · rw [if_neg h, List.append_nil]
    simp only [traceFinal, emit_off (Bool.eq_false_of_not_eq_true h)]

/-! ### The obligations -/

/-- Settles O7: the opcode match fails exactly outside 1 to 19; there decode traps with `ip` already past the word, and
inside the match gives the table's entry. -/
theorem unknownOpcodeFaultsPastTheOpcodeWord : Obligations.UnknownOpcodeFaultsPastTheOpcodeWord := by
  refine ⟨fun s w hs hmem hout => ?_, fun w h1 h19 => ?_⟩
  · have hnone : Mnemonic.ofOpcode w = none := ofOpcode_eq_none_iff.mpr hout
    have hfetch := fetch_of_ne_halt hmem (ofOpcode_eq_none.mp hnone .halt)
    rw [decodePhase_of_unknown hnone] at hfetch
    exact step_of_fetch_trap hs hfetch
  · obtain ⟨m, rfl⟩ := exists_opcodeWord_eq h1 h19
    exact ⟨m, rfl, instructionSetTable_opcodeWord m⟩

/-- Settles O45: the fetch phase hands HALT over with nothing changed, and the end of the step adds nothing to a halted
state. -/
theorem haltStopsAtItsOwnWord : Obligations.HaltStopsAtItsOwnWord := by
  intro s hs hmem
  have hexec : exec .halt s = .next (traceFinal { s with status := .halted }) := rfl
  constructor
  · rw [step_of_fetch_go hs (fetch_of_halt hmem), hexec]
    exact retire_of_not_running (by simp)
  · rw [hexec, traceFinal_eq]
    rfl

end Sys2Proof.PipelineProofs
end

section
/-!
SUPPORT. The opcode ALU and the stack depth (spec/41_arith.md R113 to R119): what pop, pop, push does in one piece, the
words a comparison pushes and a branch consumes, and how far each straight-line instruction moves `sp`.
-/

namespace Sys2Proof.ArithProofs

open Sys2Proof Sys2Proof.Machine Sys2Proof.Claims

/-! ### Pop, pop, push -/

/-- Two words are replaced by one, the deeper being the left operand (R116). -/
theorem binary_go {f : Word → Word → Word} {s : State} (h1 : 1 ≤ s.sp.toInt) (h2 : s.sp.toInt < 1000) :
    binary f s = .go () { s with
      sp := s.sp - 1, stack := s.stack.insert (s.sp.toInt - 1).toNat (f (second s) (top s)) } := by
  have hsp : (s.sp - 1).toInt = s.sp.toInt - 1 := toInt_sub_one (by omega)
  have hsp2 : (s.sp - 1 - 1).toInt = s.sp.toInt - 2 := by rw [toInt_sub_one] <;> omega
  have hback : s.sp - 1 - 1 + 1 = s.sp - 1 := by simp
  have hslot : s.sp.toInt - 2 + 1 = s.sp.toInt - 1 := by omega
  rw [binary, pop_go (by omega), Flow.bind_go, pop_go (by dsimp only; omega), Flow.bind_go,
    push_go (by dsimp only; omega)]
  simp only [hsp, hsp2, hback, hslot]
  rfl

/-- The word stored where the right operand's pop left `sp` is the top word. -/
theorem top_of_written {s : State} (h1 : 1 ≤ s.sp.toInt) (v : Word) :
    top { s with sp := s.sp - 1, stack := s.stack.insert (s.sp.toInt - 1).toNat v } = v := by
  change stackRead (stackWrite _ _ v) (s.sp - 1).toInt.toNat = v
  rw [toInt_sub_one (by omega)]
  exact stackRead_stackWrite_same { s with sp := s.sp - 1 } _ v

/-- With fewer than two words a pop faults (R116). -/
theorem binary_trap {f : Word → Word → Word} {s : State} (h : s.sp.toInt < 1) :
    ∃ info t, binary f s = .trap .stackUnderflow info t := by
  rcases pop_cases s with ⟨h0, hpop⟩ | ⟨-, hpop⟩ <;> rw [binary, hpop]
  · have hsp : (s.sp - 1).toInt = s.sp.toInt - 1 := toInt_sub_one (by omega)
    rw [Flow.bind_go, pop_trap (by dsimp only; omega)]
    exact ⟨_, _, rfl⟩
  · exact ⟨_, _, rfl⟩

/-! ### The boolean words -/

theorem boolWord_eq_zero_or_one (b : Bool) : boolWord b = 0 ∨ boolWord b = 1 := by
  cases b
  · exact .inl rfl
  · exact .inr rfl

theorem boolWord_eq_one_iff (b : Bool) : boolWord b = 1 ↔ b = true := by
  cases b <;> decide

/-- Pushing the word of a comparison leaves exactly 0 or 1 on top, 1 when the comparison of the deeper word with the top
word holds (R117). -/
theorem exists_next_of_comparison {i : Instr} {c : Word → Word → Bool} {s : State} {cur : Word}
    (hi : exec i s = (binary (fun a b => boolWord (c a b)) s).finish cur) (h1 : 1 ≤ s.sp.toInt)
    (h2 : s.sp.toInt < 1000) :
    ∃ t, exec i s = .next t ∧ (top t = 0 ∨ top t = 1) ∧ (top t = 1 ↔ c (second s) (top s) = true) := by
  rw [hi, binary_go h1 h2]
  refine ⟨_, rfl, ?_⟩
  rw [top_of_written h1]
  exact ⟨boolWord_eq_zero_or_one _, boolWord_eq_one_iff _⟩

/-- A conditional branch consumes the word it tests, taken or not (R123, R125). -/
theorem popBranch_go {taken : Word → Bool} {addr : Word} {s : State} (h : 0 ≤ s.sp.toInt) :
    popBranch taken addr s =
      .go () { s with sp := s.sp - 1, ip := if taken (top s) = true then addr else s.ip } := by
  rw [popBranch, pop_go h, Flow.bind_go]
  by_cases ht : taken (stackRead s s.sp.toInt.toNat) = true
  · simp [top, ht]
  · simp [top, ht]

/-- Settles O33: ILT and IEQ push the word of a comparison, and BRT and BRF test for these two words. -/
theorem comparisonsPushExactlyZeroOrOne : Obligations.ComparisonsPushExactlyZeroOrOne := by
  intro s h1 h2
  have h0 : 0 ≤ s.sp.toInt := by omega
  refine ⟨?_, ?_, fun addr => ⟨fun htop => ?_, fun htop => ?_⟩⟩
  · simpa using exists_next_of_comparison (i := .ilt) (c := fun a b => decide (a.toInt < b.toInt)) rfl h1 h2
  · simpa using exists_next_of_comparison (i := .ieq) (c := fun a b => a == b) rfl h1 h2
  · rw [exec_eq_body (by simp), body, popBranch_go h0, htop]
    rfl
  · rw [exec_eq_body (by simp), body, popBranch_go h0, htop]
    rfl

/-! ### The stack depth along straight-line code -/

/-- `t` has `sp` in range and is `d` words deeper than `s` (R119). -/
def DeeperBy (d : Int) (s t : State) : Prop := t.spInRange ∧ t.depth = s.depth + d

theorem deeperBy_of_sp {d : Int} {s t : State} (hd : t.sp.toInt = s.sp.toInt + d) (hlo : -1 ≤ t.sp.toInt)
    (hhi : t.sp.toInt < 1000) : DeeperBy d s t := by
  refine ⟨⟨hlo, hhi⟩, ?_⟩
  rw [State.depth, State.depth, hd]
  omega

theorem deeperBy_one_of_push {v : Word} {s t : State} (hs : s.spInRange) (h : push v s = .go () t) :
    DeeperBy 1 s t := by
  obtain ⟨hlo, -⟩ := hs
  rcases push_cases v s with ⟨hroom, hpush⟩ | ⟨-, hpush⟩ <;> rw [hpush] at h <;> cases h
  have hsp : (s.sp + 1).toInt = s.sp.toInt + 1 := toInt_add_one (by omega)
  exact deeperBy_of_sp hsp (by dsimp only; omega) (by dsimp only; omega)

/-- Moving `sp` down from a word on the stack leaves one word less. -/
theorem deeperBy_neg_one_of_sp_eq {s t : State} (hs : s.spInRange) (h0 : 0 ≤ s.sp.toInt) (ht : t.sp = s.sp - 1) :
    DeeperBy (-1) s t := by
  have hhi : s.sp.toInt < 1000 := hs.2
  have hsp : t.sp.toInt = s.sp.toInt - 1 := by rw [ht, toInt_sub_one (by omega)]
  exact deeperBy_of_sp (by omega) (by omega) (by omega)

theorem deeperBy_neg_one_of_pop {v : Word} {s t : State} (hs : s.spInRange) (h : pop s = .go v t) :
    DeeperBy (-1) s t := by
  rcases pop_cases s with ⟨h0, hpop⟩ | ⟨-, hpop⟩ <;> rw [hpop] at h <;> cases h
  exact deeperBy_neg_one_of_sp_eq hs h0 rfl

theorem deeperBy_neg_one_of_binary {f : Word → Word → Word} {s t : State} (hs : s.spInRange)
    (h : binary f s = .go () t) : DeeperBy (-1) s t := by
  rcases Int.lt_or_le s.sp.toInt 1 with hfew | htwo
  · obtain ⟨info, u, htrap⟩ := binary_trap (f := f) hfew
    rw [htrap] at h; cases h
  · rw [binary_go htwo hs.2] at h; cases h
    exact deeperBy_neg_one_of_sp_eq hs (by omega) rfl

/-- One straight-line instruction that goes on: ICONST pushes, every other one pops one word net (R119). -/
theorem deeperBy_of_body_go {i : Instr} {s t : State} (hi : straightLine i = true) (hs : s.spInRange)
    (h : body i s = .go () t) : DeeperBy (depthChange [i]) s t := by
  cases i with
  | iconst k => exact deeperBy_one_of_push hs h
  | iadd => exact deeperBy_neg_one_of_binary hs h
  | isub => exact deeperBy_neg_one_of_binary hs h
  | imul => exact deeperBy_neg_one_of_binary hs h
  | pop =>
    simp only [body] at h
    cases hpop : pop s with
    | go v u => rw [hpop] at h; cases h; exact deeperBy_neg_one_of_pop hs hpop
    | trap c info u => rw [hpop] at h; cases h
  | _ => cases hi

/-- An instruction that does not leave the core FAULTED went on. -/
theorem body_go_of_next {i : Instr} {s t : State} (hi : i ≠ .halt) (h : exec i s = .next t)
    (hok : t.status ≠ .faulted) : body i s = .go () t := by
  rcases exec_next_cases hi h with hgo | ⟨c, info, u, -, rfl⟩
  · exact hgo
  · exact absurd rfl hok

theorem depthChange_cons (i : Instr) (is : List Instr) :
    depthChange (i :: is) = depthChange [i] + depthChange is := by
  simp [depthChange]

/-- A sequence that runs through has run its first instruction without a fault and then the others. -/
theorem exists_of_execAll_cons {i : Instr} {is : List Instr} {s t : State} (h : execAll (i :: is) s = some t) :
    ∃ u, exec i s = .next u ∧ u.status ≠ .faulted ∧ execAll is u = some t := by
  rw [execAll] at h
  cases hexec : exec i s with
  | next u =>
    rw [hexec] at h
    dsimp only at h
    split at h
    · cases h
    next hok => exact ⟨u, rfl, hok, h⟩
  | fault r => rw [hexec] at h; cases h
  | refused r => rw [hexec] at h; cases h

/-- Settles O34, by induction on the sequence: each instruction that goes on moves `sp` by its own count and leaves it
in range for the next. -/
theorem straightLineDepthLaw : Obligations.StraightLineDepthLaw := by
  intro is
  induction is with
  | nil =>
    intro s t _ _ h
    cases h
    simp [depthChange]
  | cons i is ih =>
    intro s t hline hs h
    have hi : straightLine i = true := hline i List.mem_cons_self
    obtain ⟨u, hexec, hok, hrest⟩ := exists_of_execAll_cons h
    have hgo : body i s = .go () u := body_go_of_next (by rintro rfl; cases hi) hexec hok
    obtain ⟨hu, hfirst⟩ := deeperBy_of_body_go hi hs hgo
    calc t.depth = u.depth + depthChange is := ih u t (fun j hj => hline j (List.mem_cons_of_mem i hj)) hu hrest
      _ = s.depth + depthChange [i] + depthChange is := by rw [hfirst]
      _ = s.depth + depthChange (i :: is) := by rw [depthChange_cons i is, add_assoc]

end Sys2Proof.ArithProofs
end

section
/-!
SUPPORT. The conditional branches (spec/42_branch.md R121 to R125): with a word on the stack, the whole next state of BRT
and of BRF.
-/

namespace Sys2Proof.BranchProofs

open Sys2Proof Sys2Proof.Machine Sys2Proof.Claims Sys2Proof.ArithProofs

theorem isTrue_iff {v : Word} : Machine.isTrue v = true ↔ v = 1 := beq_iff_eq

theorem isFalse_iff {v : Word} : Machine.isFalse v = true ↔ v = 0 := beq_iff_eq

/-- A branch that tests the popped word for `w` pops it and jumps exactly on `w` (R123). -/
theorem exec_of_body_eq_popBranch {i : Instr} {taken : Word → Bool} {w addr : Word} {s : State} (hi : i ≠ .halt)
    (hbody : body i = popBranch taken addr) (htaken : ∀ {v}, taken v = true ↔ v = w) (h : 0 ≤ s.sp.toInt) :
    exec i s = .next { s with sp := s.sp - 1, ip := if top s = w then addr else s.ip } := by
  rw [exec_eq_body hi, hbody, popBranch_go h, Flow.finish_go]
  simp only [htaken]

/-- BRT pops and jumps exactly on 1 (R121). -/
theorem exec_brt {addr : Word} {s : State} (h : 0 ≤ s.sp.toInt) :
    exec (.brt addr) s = .next { s with sp := s.sp - 1, ip := if top s = 1 then addr else s.ip } :=
  exec_of_body_eq_popBranch (by simp) rfl isTrue_iff h

/-- BRF pops and jumps exactly on 0 (R122). -/
theorem exec_brf {addr : Word} {s : State} (h : 0 ≤ s.sp.toInt) :
    exec (.brf addr) s = .next { s with sp := s.sp - 1, ip := if top s = 0 then addr else s.ip } :=
  exec_of_body_eq_popBranch (by simp) rfl isFalse_iff h

/-- Settles O36: either branch pops whatever word is on top, and of the two boolean words each tests for its own. -/
theorem booleanBranchesPopAndJump : Obligations.BooleanBranchesPopAndJump := by
  intro addr s h
  have h10 : (1 : Word) ≠ 0 := by decide
  rw [exec_brt h, exec_brf h]
  constructor
  · intro htop
    rw [htop, if_pos rfl, if_neg h10]
    exact ⟨rfl, rfl⟩
  · intro htop
    rw [htop, if_pos rfl, if_neg h10.symm]
    exact ⟨rfl, rfl⟩

end Sys2Proof.BranchProofs
end

section
/-!
SUPPORT. How a step can stop, and what the host reads after a stop (spec/60_exceptions.md R172, R175, R177): only HALT's
word at `ip` leaves HALTED, and a dump lists the indices it keeps in ascending order.
-/

namespace Sys2Proof.StopProofs

open Sys2Proof Sys2Proof.Machine Sys2Proof.EncodingProofs Sys2Proof.PipelineProofs

/-! ### How a step can stop -/

/-- A sequence that goes on has gone on in both its parts. -/
theorem exists_of_bind_go {α β : Type} {r : Flow α} {k : α → State → Flow β} {b : β} {t : State}
    (h : r.bind k = .go b t) : ∃ a u, r = .go a u ∧ k a u = .go b t := by
  cases r with
  | go a u => exact ⟨a, u, rfl, h⟩
  | trap c info u => cases h

/-- The decode phase goes on only with an instruction whose opcode word it was given (R96). -/
theorem eq_opcodeWord_of_decodePhase_go {w : Word} {i : Instr} {s t : State} (h : decodePhase w s = .go i t) :
    w = opcodeWord i.mnemonic := by
  unfold decodePhase at h
  split at h
  · cases h
  next m hm =>
    obtain rfl := ofOpcode_eq_some.mp hm
    split at h
    next hshape =>
      cases h
      exact (List.cons.inj (encode_of_shape_f0 hshape)).1.symm
    next hshape =>
      obtain ⟨a, u, -, hgo⟩ := exists_of_bind_go h
      cases hgo
      exact (List.cons.inj (encode_of_shape_f1 hshape a)).1.symm
    next hshape =>
      obtain ⟨a, u, -, hrest⟩ := exists_of_bind_go h
      obtain ⟨b, v, -, hgo⟩ := exists_of_bind_go hrest
      cases hgo
      exact (List.cons.inj (encode_of_shape_f2 hshape a b)).1.symm

/-- Fetch and decode go on with HALT only where HALT's word is at `ip` (R93). -/
theorem ne_halt_of_fetch_go {s t : State} {i : Instr} (h : fetch s = .go i t)
    (hmem : imemAt s s.ip.toInt ≠ some (opcodeWord .halt)) : i ≠ .halt := by
  rintro rfl
  cases hw : imemAt s s.ip.toInt with
  | none => simp [fetch, hw] at h
  | some w =>
    have hne : w ≠ opcodeWord .halt := fun hEq => hmem (by rw [hw, hEq])
    rw [fetch_of_ne_halt hw hne] at h
    exact hne (eq_opcodeWord_of_decodePhase_go h)

/-- Fetch and decode leave `status` alone. -/
@[simp] theorem fetch_state_status (s : State) : (fetch s).state.status = s.status := by
  rw [(fetch_state s).1]

/-- No instruction's pseudocode writes `status`: a fault is taken after it, and HALT's stop is not in it. -/
@[simp] theorem body_state_status (i : Instr) (s : State) : (body i s).state.status = s.status := by
  cases i with
  | gstore off => rcases body_gstore_state off s with h | h | ⟨-, -, -, h⟩ <;> rw [h]
  | print => rcases body_print s with ⟨-, h⟩ | ⟨-, h⟩ <;> rw [h] <;> rfl
  | _ => rw [body_frame rfl s]

/-- An instruction other than HALT leaves `status` as it was or takes a fault. -/
theorem exec_status {i : Instr} {s t : State} (hi : i ≠ .halt) (h : exec i s = .next t) :
    t.status = s.status ∨ t.status = .faulted := by
  rcases exec_next_cases hi h with hgo | ⟨c, info, u, -, rfl⟩
  · left
    simpa [hgo] using body_state_status i s
  · exact .inr rfl

/-- Without HALT's word at `ip`, a step leaves the core RUNNING or FAULTED (R172). -/
theorem step_status_of_not_halt {s t : State} (h : step s = .next t)
    (hmem : imemAt s s.ip.toInt ≠ some (opcodeWord .halt)) : t.status = .running ∨ t.status = .faulted := by
  obtain ⟨hs, ⟨c, info, u, -, rfl⟩ | ⟨i, u, v, hfetch, hexec, rfl⟩⟩ := step_cases h
  · exact .inr rfl
  · have hu : u.status = .running := by simpa [hfetch, hs] using fetch_state_status s
    have hv := exec_status (ne_halt_of_fetch_go hfetch hmem) hexec
    rw [hu] at hv
    rcases hv with hv | hv <;> simp [hv]

/-- With HALT's word at `ip`, a step leaves the core HALTED and `cause` as it was (R93, R142). -/
theorem step_of_halt {s t : State} (h : step s = .next t)
    (hmem : imemAt s s.ip.toInt = some (opcodeWord .halt)) : t.status = .halted ∧ t.cause = s.cause := by
  obtain ⟨hstep, hexec⟩ := haltStopsAtItsOwnWord s (step_cases h).1 hmem
  rw [hstep, hexec] at h
  cases h
  exact ⟨rfl, rfl⟩

/-- Settles O10: the cases of a step are HALT's word at `ip`, which keeps the absent cause of a RUNNING core, and any
other fetch, which does not halt. -/
theorem onlyAFetchedHaltHalts : Obligations.OnlyAFetchedHaltHalts := by
  intro s t h
  by_cases hmem : imemAt s s.ip.toInt = some (opcodeWord .halt)
  · obtain ⟨hhalt, hcause⟩ := step_of_halt h hmem
    refine ⟨.inr (.inl hhalt), iff_of_true hhalt hmem, fun hok _ => ?_⟩
    have hrun : s.status = .running := (step_cases h).1
    have hnone : s.cause = .noFault := by
      obtain ⟨hok, -⟩ := hok
      simpa [hrun] using hok
    rw [readCause, hcause, hnone]
    rfl
  · have hstat := step_status_of_not_halt h hmem
    have hnot : t.status ≠ .halted := by rcases hstat with h | h <;> simp [h]
    exact ⟨hstat.imp_right .inr, iff_of_false hnot hmem, fun _ hhalt => absurd hhalt hnot⟩

/-! ### The dumps -/

/-- Pairing the indices below `n` with their words in order gives rising indices. -/
theorem indexed_pairwise_lt (n : Nat) (f : Nat → Word) :
    ((List.range n).map fun i => (i, f i)).Pairwise fun a b => a.1 < b.1 :=
  List.pairwise_map.mpr List.pairwise_lt_range

theorem mem_indexed {n : Nat} {f : Nat → Word} {i : Nat} {v : Word} :
    (i, v) ∈ (List.range n).map (fun i => (i, f i)) ↔ i < n ∧ v = f i := by
  simp [eq_comm]

/-- A memory dump is in ascending index order (R177). -/
theorem nonNegative_pairwise_lt (n : Nat) (m : Memory) : (nonNegative n m).Pairwise fun a b => a.1 < b.1 :=
  (indexed_pairwise_lt n m.read).filter _

/-- A memory dump lists exactly the slots that are not negative (R177). -/
theorem mem_nonNegative {n : Nat} {m : Memory} {i : Nat} {v : Word} :
    (i, v) ∈ nonNegative n m ↔ (i < n ∧ v = m.read i) ∧ 0 ≤ v.toInt := by
  rw [nonNegative, List.mem_filter, mem_indexed, decide_eq_true_iff]

/-- The stack dump is in ascending index order (R175). -/
theorem liveStack_pairwise_lt (s : State) : (liveStack s).Pairwise fun a b => a.1 < b.1 :=
  indexed_pairwise_lt _ (stackRead s)

/-- The stack dump lists exactly the slots up to `sp` (R175). -/
theorem mem_liveStack {s : State} {j : Nat} {v : Word} :
    (j, v) ∈ liveStack s ↔ (j : Int) ≤ s.sp.toInt ∧ v = stackRead s j := by
  rw [liveStack, mem_indexed]
  exact and_congr_left' (by omega)

/-- The data dump's slots are the globals (R177). -/
theorem mem_nonNegative_globals {s : State} {g : Nat} {v : Word} :
    (g, v) ∈ nonNegative s.gcount.toInt.toNat s.globals ↔
      (g : Int) < s.gcount.toInt ∧ v = globalRead s g ∧ 0 ≤ v.toInt := by
  rw [mem_nonNegative, globalRead, and_assoc]
  exact and_congr_left' (by omega)

/-- The code dump's slots are the instruction words (R177, R56). -/
theorem mem_nonNegative_imem {s : State} {k : Nat} {v : Word} :
    (k, v) ∈ nonNegative s.icount.toInt.toNat s.imem ↔ imemAt s k = some v ∧ 0 ≤ v.toInt := by
  rw [mem_nonNegative]
  refine and_congr_left' ?_
  rcases imemAt_cases s k with ⟨hin, hmem⟩ | ⟨hout, hmem⟩ <;> rw [hmem]
  · have hlt : k < s.icount.toInt.toNat := by omega
    simp [hlt, eq_comm]
  · have hge : ¬ k < s.icount.toInt.toNat := by omega
    simp [hge]

/-- After a stop the host is given both dumps (R181). -/
theorem hasStopped_of_status {s : State} (h : s.status = .halted ∨ s.status = .faulted) : hasStopped s = true := by
  rcases h with h | h <;> simp [hasStopped, h]

/-- Settles O17: both memory dumps are `nonNegative` of a memory, and the stack dump pairs every live slot with its
word. -/
theorem dumpsListTheirSlotsInOrder : Obligations.DumpsListTheirSlotsInOrder := by
  refine fun s => ⟨fun hstop => ?_, liveStack_pairwise_lt s, fun _ _ => mem_liveStack⟩
  have hstopped := hasStopped_of_status hstop
  exact ⟨_, _, if_pos hstopped, if_pos hstopped, nonNegative_pairwise_lt _ _, nonNegative_pairwise_lt _ _,
    fun _ _ => mem_nonNegative_globals, fun _ _ => mem_nonNegative_imem⟩

end Sys2Proof.StopProofs
end

section
/-!
SUPPORT. Everything the fetch phase can do (spec/40_pipeline.md R91 to R95): the bounds check, HALT, and any other word.
-/

namespace Sys2Proof.FetchProofs

open Sys2Proof Sys2Proof.Machine Sys2Proof.PipelineProofs

/-- An `ip` outside the instruction memory faults before any read (R92). -/
theorem fetch_of_none {s : State} (h : imemAt s s.ip.toInt = none) : fetch s = .trap .ipOutOfBounds s.ip s := by
  simp only [fetch, h]

/-- Everything the fetch phase can do. -/
theorem fetch_cases (s : State) :
    (imemAt s s.ip.toInt = none ∧ fetch s = .trap .ipOutOfBounds s.ip s) ∨
    (imemAt s s.ip.toInt = some (opcodeWord .halt) ∧ fetch s = .go .halt s) ∨
    ∃ w, imemAt s s.ip.toInt = some w ∧ w ≠ opcodeWord .halt ∧
      fetch s = decodePhase w { tracePre s.ip w s with ip := s.ip + 1 } := by
  cases h : imemAt s s.ip.toInt with
  | none => exact .inl ⟨rfl, fetch_of_none h⟩
  | some w =>
    by_cases hw : w = opcodeWord .halt
    · subst hw
      exact .inr (.inl ⟨rfl, fetch_of_halt h⟩)
    · exact .inr (.inr ⟨w, rfl, hw, fetch_of_ne_halt h hw⟩)

end Sys2Proof.FetchProofs
end

section
/-!
SUPPORT. Tracing has no architectural effect (spec/60_exceptions.md R179): every statement of the pseudocode does to a
state what it does to its architectural view, and the trace unit leaves the view alone.
-/

namespace Sys2Proof.TraceProofs

open Sys2Proof Sys2Proof.Machine Sys2Proof.PipelineProofs Sys2Proof.FetchProofs

/-! ### The trace unit and the architectural view -/

@[simp] theorem emit_untraced (r : TraceRecord) (s : State) : emit r s.untraced = s.untraced := emit_off rfl

/-- A record is not in the view. -/
@[simp] theorem untraced_emit (r : TraceRecord) (s : State) : (emit r s).untraced = s.untraced := by
  unfold emit
  split
  · simp [State.untraced, Event.isOutput]
  · rfl

@[simp] theorem tracePre_untraced (cur w : Word) (s : State) : tracePre cur w s.untraced = s.untraced :=
  emit_untraced _ s

@[simp] theorem untraced_tracePre (cur w : Word) (s : State) : (tracePre cur w s).untraced = s.untraced :=
  untraced_emit _ s

@[simp] theorem tracePost_untraced (s : State) : tracePost s.untraced = s.untraced := emit_off rfl

@[simp] theorem untraced_tracePost (s : State) : (tracePost s).untraced = s.untraced := untraced_emit _ s

@[simp] theorem traceFinal_untraced (s : State) : traceFinal s.untraced = s.untraced := by simp [traceFinal]

@[simp] theorem untraced_traceFinal (s : State) : (traceFinal s).untraced = s.untraced := by simp [traceFinal]

/-! ### The pseudocode and the architectural view -/

/-- A change of the state carried through the answer of a piece of pseudocode. -/
def mapState {α : Type} (f : State → State) : Flow α → Flow α
  | .go a s => .go a (f s)
  | .trap c info s => .trap c info (f s)

@[simp] theorem mapState_go {α : Type} (f : State → State) (a : α) (s : State) :
    mapState f (Flow.go a s) = .go a (f s) := rfl

/-- A piece of pseudocode does to the view of a state what it does to the state (R179). -/
def IgnoresTrace {α : Type} (m : State → Flow α) : Prop := ∀ s, m s.untraced = mapState State.untraced (m s)

theorem bind_ignoresTrace {α β : Type} {m : State → Flow α} {k : α → State → Flow β} (hm : IgnoresTrace m)
    (hk : ∀ a, IgnoresTrace (k a)) : IgnoresTrace fun s => (m s).bind k := by
  intro s
  dsimp only
  rw [hm s]
  cases m s with
  | go a t => exact hk a t
  | trap c info t => rfl

theorem go_ignoresTrace {α : Type} (a : α) : IgnoresTrace (Flow.go a) := fun _ => rfl

theorem push_ignoresTrace (v : Word) : IgnoresTrace (push v) := fun s => by
  rcases push_cases v s with ⟨h, hpush⟩ | ⟨h, hpush⟩ <;> rw [hpush]
  · exact push_go h
  · exact push_trap h

theorem pop_ignoresTrace : IgnoresTrace pop := fun s => by
  rcases pop_cases s with ⟨h, hpop⟩ | ⟨h, hpop⟩ <;> rw [hpop]
  · exact pop_go h
  · exact pop_trap h

theorem setSp_ignoresTrace (z : Int) : IgnoresTrace (setSp z) := fun s => by
  rcases setSp_cases z s with ⟨⟨hlo, hhi⟩, hset⟩ | ⟨h, hset⟩ <;> rw [hset]
  · exact setSp_go hlo hhi
  · exact setSp_trap h

theorem stackIdx_ignoresTrace (z : Int) : IgnoresTrace (stackIdx z) := fun s => by
  rcases stackIdx_cases z s with ⟨⟨hlo, hhi⟩, hidx⟩ | ⟨h, hidx⟩ <;> rw [hidx]
  · exact stackIdx_go hlo hhi
  · exact stackIdx_trap h

theorem globalIdx_ignoresTrace (v : Word) : IgnoresTrace (globalIdx v) := fun s => by
  rcases globalIdx_cases v s with ⟨⟨hlo, hhi⟩, hidx⟩ | ⟨h, hidx⟩ <;> rw [hidx]
  · exact globalIdx_go hlo hhi
  · exact globalIdx_trap h

theorem setIp_ignoresTrace (w : Word) : IgnoresTrace (setIp w) := fun _ => rfl

theorem setFp_ignoresTrace (w : Word) : IgnoresTrace (setFp w) := fun _ => rfl

/-- A printed word is in the view. -/
theorem out_ignoresTrace (v : Word) : IgnoresTrace (out v) := fun s => by
  simp [State.untraced, List.filter_cons, Event.isOutput]

theorem operand_ignoresTrace : IgnoresTrace operand := fun s => by
  cases h : imemAt s s.ip.toInt with
  | none => rw [operand_trap h]; exact operand_trap h
  | some w => rw [operand_go h]; exact operand_go h

theorem binary_ignoresTrace (f : Word → Word → Word) : IgnoresTrace (binary f) :=
  bind_ignoresTrace pop_ignoresTrace fun _ => bind_ignoresTrace pop_ignoresTrace fun _ => push_ignoresTrace _

theorem popBranch_ignoresTrace (taken : Word → Bool) (addr : Word) : IgnoresTrace (popBranch taken addr) :=
  bind_ignoresTrace pop_ignoresTrace fun v => by
    cases taken v
    · exact go_ignoresTrace ()
    · exact setIp_ignoresTrace addr

theorem callBody_ignoresTrace (addr nargs : Word) : IgnoresTrace (callBody addr nargs) :=
  bind_ignoresTrace (push_ignoresTrace nargs) fun _ =>
    bind_ignoresTrace (fun s => push_ignoresTrace s.fp s) fun _ =>
    bind_ignoresTrace (fun s => push_ignoresTrace s.ip s) fun _ =>
    bind_ignoresTrace (fun s => setFp_ignoresTrace s.sp s) fun _ => setIp_ignoresTrace addr

theorem retBody_ignoresTrace : IgnoresTrace retBody :=
  bind_ignoresTrace pop_ignoresTrace fun rv =>
    bind_ignoresTrace (fun s => setSp_ignoresTrace s.fp.toInt s) fun _ =>
    bind_ignoresTrace pop_ignoresTrace fun ra => bind_ignoresTrace (setIp_ignoresTrace ra) fun _ =>
    bind_ignoresTrace pop_ignoresTrace fun fp => bind_ignoresTrace (setFp_ignoresTrace fp) fun _ =>
    bind_ignoresTrace pop_ignoresTrace fun n =>
    bind_ignoresTrace (fun s => setSp_ignoresTrace (s.sp.toInt - n.toInt) s) fun _ => push_ignoresTrace rv

theorem copyWord_ignoresTrace (base : Int) (i : Nat) : IgnoresTrace (copyWord base i) :=
  bind_ignoresTrace (stackIdx_ignoresTrace _) fun _ =>
    bind_ignoresTrace (fun s => stackIdx_ignoresTrace (s.fp.toInt + i) s) fun _ _ => rfl

theorem copyWords_ignoresTrace (base : Int) (n left : Nat) : IgnoresTrace (copyWords base n left) := by
  induction left with
  | zero => exact go_ignoresTrace ()
  | succ left ih => exact bind_ignoresTrace (copyWord_ignoresTrace _ _) fun _ => ih

theorem initBody_ignoresTrace : IgnoresTrace initBody :=
  bind_ignoresTrace pop_ignoresTrace fun n => bind_ignoresTrace pop_ignoresTrace fun addr =>
    bind_ignoresTrace (fun s => copyWords_ignoresTrace (s.sp.toInt - n.toInt + 1) _ _ s) fun _ =>
    bind_ignoresTrace (fun s => setSp_ignoresTrace (s.sp.toInt - n.toInt) s) fun _ => setIp_ignoresTrace addr

/-- No instruction's pseudocode looks at the trace. -/
theorem body_ignoresTrace (i : Instr) : IgnoresTrace (body i) := by
  cases i with
  | iadd => exact binary_ignoresTrace _
  | isub => exact binary_ignoresTrace _
  | imul => exact binary_ignoresTrace _
  | ilt => exact binary_ignoresTrace _
  | ieq => exact binary_ignoresTrace _
  | br addr => exact setIp_ignoresTrace addr
  | brt addr => exact popBranch_ignoresTrace _ addr
  | brf addr => exact popBranch_ignoresTrace _ addr
  | iconst k => exact push_ignoresTrace k
  | load off =>
    exact bind_ignoresTrace (fun s => stackIdx_ignoresTrace (frameIndex off s) s) fun i s =>
      push_ignoresTrace (stackRead s i) s
  | store off =>
    exact bind_ignoresTrace pop_ignoresTrace fun _ =>
      bind_ignoresTrace (fun s => stackIdx_ignoresTrace (frameIndex off s) s) fun _ _ => rfl
  | gload off =>
    exact bind_ignoresTrace (globalIdx_ignoresTrace off) fun g s => push_ignoresTrace (globalRead s g) s
  | gstore off =>
    exact bind_ignoresTrace pop_ignoresTrace fun _ => bind_ignoresTrace (globalIdx_ignoresTrace off) fun _ _ => rfl
  | print => exact bind_ignoresTrace pop_ignoresTrace out_ignoresTrace
  | pop => exact bind_ignoresTrace pop_ignoresTrace fun _ => go_ignoresTrace ()
  | halt => exact go_ignoresTrace ()
  | call addr nargs => exact callBody_ignoresTrace addr nargs
  | ret => exact retBody_ignoresTrace
  | init => exact initBody_ignoresTrace

theorem decodePhase_ignoresTrace (w : Word) : IgnoresTrace (decodePhase w) := by
  intro s
  unfold decodePhase
  split
  · rfl
  · split
    · rfl
    · exact bind_ignoresTrace operand_ignoresTrace (fun _ => go_ignoresTrace _) s
    · exact bind_ignoresTrace operand_ignoresTrace
        (fun _ => bind_ignoresTrace operand_ignoresTrace fun _ => go_ignoresTrace _) s

theorem fetch_ignoresTrace : IgnoresTrace fetch := by
  intro s
  rcases fetch_cases s with ⟨hmem, hf⟩ | ⟨hmem, hf⟩ | ⟨w, hmem, hw, hf⟩ <;> rw [hf]
  · exact fetch_of_none hmem
  · exact fetch_of_halt hmem
  · have hview : ({ tracePre s.untraced.ip w s.untraced with ip := s.untraced.ip + 1 } : State) =
        State.untraced { tracePre s.ip w s with ip := s.ip + 1 } := by
      change _ = ({ (tracePre s.ip w s).untraced with ip := s.ip + 1 } : State)
      rw [tracePre_untraced, untraced_tracePre]
      rfl
    rw [fetch_of_ne_halt (s := s.untraced) hmem hw, hview]
    exact decodePhase_ignoresTrace w _

/-! ### The step -/

theorem finish_mapState (r : Flow Unit) (cur : Word) :
    (mapState State.untraced r).finish cur = mapNext State.untraced (r.finish cur) := by
  cases r <;> rfl

theorem exec_untraced (i : Instr) (s : State) : exec i s.untraced = mapNext State.untraced (exec i s) := by
  by_cases hi : i = .halt
  · subst hi
    change Host.Outcome.next (traceFinal (State.untraced { s with status := .halted })) =
      .next (State.untraced (traceFinal { s with status := .halted }))
    rw [traceFinal_untraced, untraced_traceFinal]
  · rw [exec_eq_body hi, exec_eq_body hi, body_ignoresTrace i s]
    exact finish_mapState _ _

theorem retire_mapNext (o : Outcome) : retire (mapNext State.untraced o) = mapNext State.untraced (retire o) := by
  cases o with
  | next t =>
    by_cases h : t.status = .running
    · have h' : t.untraced.status = .running := h
      simp [mapNext, retire, h, h']
    · rw [mapNext, retire_of_not_running h]
      exact retire_of_not_running h
  | fault r => rfl
  | refused r => rfl

/-- Settles O20: fetch, decode and execute do the same to the architectural view, and the records at the end of the step
are not in it. -/
theorem tracingHasNoArchitecturalEffect : Obligations.TracingHasNoArchitecturalEffect := by
  intro s
  have hstatus : s.untraced.status = s.status := rfl
  cases hs : s.status with
  | ready => simp only [step, hstatus, hs, mapNext]
  | halted => simp only [step, hstatus, hs, mapNext]
  | faulted => simp only [step, hstatus, hs, mapNext]
  | running =>
    have hview := fetch_ignoresTrace s
    cases hf : fetch s with
    | trap c info t =>
      rw [hf] at hview
      rw [step_of_fetch_trap hs hf, step_of_fetch_trap (hstatus.trans hs) hview]
      rfl
    | go i t =>
      rw [hf] at hview
      rw [step_of_fetch_go hs hf, step_of_fetch_go (hstatus.trans hs) hview, exec_untraced, retire_mapNext]

end Sys2Proof.TraceProofs
end

section
/-!
SUPPORT. Whole next states of the instructions that call nothing (spec/41_arith.md to spec/44_stack_io.md): the
pseudocode, run to its end, either goes on to a state or traps, and `exec` answers that state or takes that fault.
-/

namespace Sys2Proof.InstructionProofs

open Sys2Proof Sys2Proof.Machine Sys2Proof.Claims Sys2Proof.ArithProofs Sys2Proof.BranchProofs

/-! ### From the pseudocode to the instruction -/

/-- An instruction whose pseudocode goes on answers the state it leaves. -/
theorem exec_of_body_go {i : Instr} {s t : State} (h : body i s = .go () t) (hi : i ≠ .halt := by simp) :
    exec i s = .next t := by
  rw [exec_eq_body hi, h, Flow.finish_go]

/-- An instruction whose pseudocode traps faults at its own opcode word (R162). -/
theorem faults_of_body_trap {i : Instr} {s t : State} {c : Cause} {info : Word} (h : body i s = .trap c info t)
    (hi : i ≠ .halt := by simp) (hc : c ≠ .ipOutOfBounds := by decide) : Faults i s c info t := by
  rw [Faults, exec_eq_body hi, h, Flow.finish_trap]
  simp only [takeFault, if_neg hc, instrStart]

/-- A word is known by its integer. -/
theorem eq_wrap_of_toInt {w : Word} {z : Int} (h : w.toInt = z) : w = wrap z := by
  rw [← h, wrap_toInt]

/-- Popping the only word leaves the empty stack. -/
theorem sub_one_of_toInt_zero {w : Word} (h : w.toInt = 0) : w - 1 = -1 := by
  rw [eq_wrap_of_toInt h]
  decide

section Body
variable (off : Word) (s : State)
theorem body_load : body (.load off) s = (frameSlot off s).bind fun i t => push (stackRead t i) t := rfl
theorem body_store : body (.store off) s =
    (pop s).bind fun v t => (frameSlot off t).bind fun i u => .go () (stackWrite u i v) := rfl
theorem body_gload : body (.gload off) s = (globalSlot off s).bind fun g t => push (globalRead t g) t := rfl
theorem body_gstore : body (.gstore off) s =
    (pop s).bind fun v t => (globalSlot off t).bind fun g u => .go () (globalWrite u g v) := rfl
theorem body_pop : body .pop s = (pop s).bind fun _ t => .go () t := rfl
end Body

/-! ### Arithmetic and comparison -/

/-- A row of the ALU's table: its encoding, and its pseudocode is pop, pop, push of its function (R110 to R114). -/
theorem aluTable_row {i : Instr} {n : Word} {f : Word → Word → Word} (h : (i, n, f) ∈ aluTable) :
    i ≠ .halt ∧ encode i = [n] ∧ body i = binary f := by
  simp only [aluTable, List.mem_cons, Prod.mk.injEq, List.not_mem_nil, or_false] at h
  rcases h with ⟨rfl, rfl, rfl⟩ | ⟨rfl, rfl, rfl⟩ | ⟨rfl, rfl, rfl⟩ | ⟨rfl, rfl, rfl⟩ | ⟨rfl, rfl, rfl⟩ <;>
    exact ⟨by simp, rfl, by simp [body, boolWord]⟩

/-- A row of the exact results: the instruction delivers the word of the exact integer (R115). -/
theorem exactTable_row {i : Instr} {op : Int → Int → Int} (h : (i, op) ∈ exactTable) :
    i ≠ .halt ∧ body i = binary fun a b => wrap (op a.toInt b.toInt) := by
  simp only [exactTable, List.mem_cons, Prod.mk.injEq, List.not_mem_nil, or_false] at h
  rcases h with ⟨rfl, rfl⟩ | ⟨rfl, rfl⟩ | ⟨rfl, rfl⟩ <;> exact ⟨by simp, by simp [body]⟩

/-- With one word the second pop faults, the word consumed (R116). -/
theorem binary_trap_of_one {f : Word → Word → Word} {s : State} (h : s.sp.toInt = 0) :
    binary f s = .trap .stackUnderflow (-1) { s with sp := -1 } := by
  rw [binary, pop_go (by omega), Flow.bind_go, sub_one_of_toInt_zero h, pop_trap (by decide : (-1 : Word).toInt < 0),
    Flow.bind_trap]

/-- With no word the first pop faults. -/
theorem binary_trap_of_none {f : Word → Word → Word} {s : State} (h : s.sp.toInt < 0) :
    binary f s = .trap .stackUnderflow s.sp s := by
  rw [binary, pop_trap h, Flow.bind_trap]

/-- Settles O31: each row of the table is pop, pop, push of its function, run with two words, one and none. -/
theorem aluInstructionsReplaceTheTopTwoWords : Obligations.AluInstructionsReplaceTheTopTwoWords := by
  intro i n f hrow
  obtain ⟨hi, hcode, hbody⟩ := aluTable_row hrow
  refine ⟨hcode, fun s => ⟨fun h1 h2 => ?_, fun h => ?_, fun h => ?_⟩⟩
  · exact exec_of_body_go (by rw [hbody, binary_go h1 h2]) hi
  · exact faults_of_body_trap (by rw [hbody, binary_trap_of_one h]) hi
  · exact faults_of_body_trap (by rw [hbody, binary_trap_of_none h]) hi

/-- Settles O32: the word delivered is the wrap of the exact integer, which is that integer when it is in range. -/
theorem arithmeticIsExactWhenTheResultFits : Obligations.ArithmeticIsExactWhenTheResultFits := by
  intro i op hrow s h1 h2 hlo hhi
  obtain ⟨hi, hbody⟩ := exactTable_row hrow
  refine ⟨_, exec_of_body_go (by rw [hbody, binary_go h1 h2]) hi, ?_, ?_⟩
  · rw [top_of_written h1, toInt_wrap hlo hhi]
  · exact toInt_sub_one (by omega)

/-! ### Branches -/

/-- Settles O35: BR is one assignment to `ip`. -/
theorem brSetsTheInstructionPointer : Obligations.BrSetsTheInstructionPointer :=
  fun addr s => ⟨rfl, exec_of_body_go (setIp_eq addr s)⟩

/-- On the empty stack a conditional branch faults before any jump (R121, R122). -/
theorem popBranch_trap {taken : Word → Bool} {addr : Word} {s : State} (h : s.sp.toInt < 0) :
    popBranch taken addr s = .trap .stackUnderflow s.sp s := by
  rw [popBranch, pop_trap h, Flow.bind_trap]

/-- Settles O37: BRT tests for 1 and BRF for 0, after the pop that faults on the empty stack. -/
theorem conditionalBranchesPopAndTestTheWholeWord : Obligations.ConditionalBranchesPopAndTestTheWholeWord := by
  rintro i addr n v (⟨rfl, rfl, rfl⟩ | ⟨rfl, rfl, rfl⟩)
  · exact ⟨rfl, fun s => ⟨exec_brt, fun h => faults_of_body_trap (popBranch_trap h)⟩⟩
  · exact ⟨rfl, fun s => ⟨exec_brf, fun h => faults_of_body_trap (popBranch_trap h)⟩⟩

/-! ### Constants, locals, globals -/

/-- Settles O38: ICONST is one push. -/
theorem iconstPushesItsOperand : Obligations.IconstPushesItsOperand := by
  refine fun k s => ⟨rfl, fun _ h => ?_, fun h => ?_⟩
  · exact exec_of_body_go (push_go (by omega))
  · exact faults_of_body_trap (push_trap (by omega))

/-- The frame-relative mode inside the stack memory (R135). -/
theorem frameSlot_go {off : Word} {s : State} (h1 : 0 ≤ s.fp.toInt + off.toInt) (h2 : s.fp.toInt + off.toInt < 1000) :
    frameSlot off s = .go (s.fp.toInt + off.toInt).toNat s := stackIdx_go h1 h2

/-- The frame-relative mode outside it (R135). -/
theorem frameSlot_trap {off : Word} {s : State} (h : s.fp.toInt + off.toInt < 0 ∨ 1000 ≤ s.fp.toInt + off.toInt) :
    frameSlot off s = .trap .stackIndexOutOfBounds (wrap (s.fp.toInt + off.toInt)) s := stackIdx_trap h

/-- The absolute mode of an existing global (R135). -/
theorem globalSlot_go {off : Word} {s : State} (h1 : 0 ≤ off.toInt) (h2 : off.toInt < s.gcount.toInt) :
    globalSlot off s = .go off.toInt.toNat s := globalIdx_go h1 h2

/-- The absolute mode of a global that does not exist (R135). -/
theorem globalSlot_trap {off : Word} {s : State} (h : off.toInt < 0 ∨ s.gcount.toInt ≤ off.toInt) :
    globalSlot off s = .trap .globalIndexOutOfBounds off s := globalIdx_trap h

/-- Settles O39: the index check, the read and the push, in this order. -/
theorem loadPushesTheFrameSlot : Obligations.LoadPushesTheFrameSlot := by
  refine fun off s => ⟨rfl, fun h => ?_, fun h1 h2 => ⟨fun _ h => ?_, fun h => ?_⟩⟩
  · exact faults_of_body_trap (by rw [body_load, frameSlot_trap h, Flow.bind_trap])
  · exact exec_of_body_go (by rw [body_load, frameSlot_go h1 h2, Flow.bind_go, push_go (by omega)])
  · exact faults_of_body_trap (by rw [body_load, frameSlot_go h1 h2, Flow.bind_go, push_trap (by omega)])

/-- Settles O40: the pop, the index check and the write, in this order. -/
theorem storePopsIntoTheFrameSlot : Obligations.StorePopsIntoTheFrameSlot := by
  refine fun off s => ⟨rfl, fun h => ?_, fun h0 => ⟨fun h => ?_, fun h1 h2 => ?_⟩⟩
  · exact faults_of_body_trap (by rw [body_store, pop_trap h, Flow.bind_trap])
  · exact faults_of_body_trap (by
      rw [body_store, pop_go h0, Flow.bind_go, frameSlot_trap (s := { s with sp := s.sp - 1 }) h, Flow.bind_trap])
  · exact exec_of_body_go (by
      rw [body_store, pop_go h0, Flow.bind_go, frameSlot_go (s := { s with sp := s.sp - 1 }) h1 h2]
      rfl)

/-- Settles O41: the index check, the read and the push, in this order. -/
theorem gloadPushesTheGlobalSlot : Obligations.GloadPushesTheGlobalSlot := by
  refine fun off s => ⟨rfl, fun h => ?_, fun h1 h2 => ⟨fun _ h => ?_, fun h => ?_⟩⟩
  · exact faults_of_body_trap (by rw [body_gload, globalSlot_trap h, Flow.bind_trap])
  · exact exec_of_body_go (by rw [body_gload, globalSlot_go h1 h2, Flow.bind_go, push_go (by omega)])
  · exact faults_of_body_trap (by rw [body_gload, globalSlot_go h1 h2, Flow.bind_go, push_trap (by omega)])

/-- Settles O42: the pop, the index check and the write, in this order; a global reads as the word last written. -/
theorem gstorePopsIntoTheGlobalSlot : Obligations.GstorePopsIntoTheGlobalSlot := by
  refine fun off s => ⟨rfl, fun h => ?_, fun h0 => ⟨fun h => ?_, fun h1 h2 => ?_⟩⟩
  · exact faults_of_body_trap (by rw [body_gstore, pop_trap h, Flow.bind_trap])
  · exact faults_of_body_trap (by
      rw [body_gstore, pop_go h0, Flow.bind_go, globalSlot_trap (s := { s with sp := s.sp - 1 }) h, Flow.bind_trap])
  · refine ⟨globalWrite { s with sp := s.sp - 1 } off.toInt.toNat (top s),
      exec_of_body_go (by
        rw [body_gstore, pop_go h0, Flow.bind_go, globalSlot_go (s := { s with sp := s.sp - 1 }) h1 h2]
        rfl),
      globalRead_globalWrite_same _ _ _, rfl, fun g hg => ?_⟩
    exact globalRead_globalWrite_other { s with sp := s.sp - 1 } (top s) hg

/-! ### Output and discard -/

/-- Settles O43: PRINT is a pop and an append to `out`, or the fault of the pop. -/
theorem printSendsTheTopWord : Obligations.PrintSendsTheTopWord := by
  refine fun s => ⟨rfl, fun h => ?_, fun h => ?_⟩
  · rcases body_print s with ⟨-, hgo⟩ | ⟨hneg, -⟩
    · exact ⟨_, exec_of_body_go hgo, by simp [State.out, top], by simp [State.trace], rfl⟩
    · omega
  · rcases body_print s with ⟨h0, -⟩ | ⟨-, htrap⟩
    · omega
    · exact faults_of_body_trap htrap

/-- Settles O44: POP is one pop whose word goes nowhere. -/
theorem popDiscardsTheTopWord : Obligations.PopDiscardsTheTopWord := by
  refine fun s => ⟨rfl, fun h => ?_, fun h => ?_⟩
  · exact exec_of_body_go (by rw [body_pop, pop_go h, Flow.bind_go])
  · exact faults_of_body_trap (by rw [body_pop, pop_trap h, Flow.bind_trap])

end Sys2Proof.InstructionProofs
end

section
/-!
SUPPORT. The opcode map, the decode phase and the step (spec/30_encoding.md R73 to R75, spec/40_pipeline.md R90 to R97):
the operand words are fetched one after the other behind the opcode word, and `ip` ends past the last of them.
-/

namespace Sys2Proof.StepProofs

open Sys2Proof Sys2Proof.Machine Sys2Proof.Claims Sys2Proof.EncodingProofs Sys2Proof.PipelineProofs
  Sys2Proof.StopProofs Sys2Proof.FetchProofs

/-! ### The opcode map -/

/-- Settles O2: the decoder evaluated on each list. -/
theorem sampleWordsDecodeAsTheSpecSays : Obligations.SampleWordsDecodeAsTheSpecSays :=
  ⟨rfl, rfl, rfl, rfl, rfl, rfl, rfl, rfl⟩

/-- A word with a mnemonic is not rejected as unknown. -/
theorem decode_ne_unknownOpcode {w : Word} {m : Mnemonic} (h : Mnemonic.ofOpcode w = some m) (ws : List Word) :
    decode (w :: ws) ≠ .error (.unknownOpcode w) := by
  simp only [decode, h]
  split <;> simp

/-- Settles O3: the decoder rejects by name where the opcode match fails, which is outside 1 to 19. -/
theorem unknownOpcodesAreExactlyTheWordsOutside1To19 : Obligations.UnknownOpcodesAreExactlyTheWordsOutside1To19 := by
  intro w ws
  rw [← ofOpcode_eq_none_iff]
  cases h : Mnemonic.ofOpcode w with
  | none => simp [decode, h]
  | some m => simpa using decode_ne_unknownOpcode h ws

theorem opcodeNumber_bounds (m : Mnemonic) : 1 ≤ opcodeNumber m ∧ opcodeNumber m ≤ 19 := by
  cases m <;> decide

/-- The opcode match undoes the map, so the map is injective (R73). -/
theorem opcodeNumber_injective {m m' : Mnemonic} (h : opcodeNumber m = opcodeNumber m') : m = m' := by
  have hword : opcodeWord m = opcodeWord m' := by rw [opcodeWord, opcodeWord, h]
  have hfind := ofOpcode_opcodeWord m
  rw [hword, ofOpcode_opcodeWord] at hfind
  exact (Option.some.inj hfind).symm

/-- Settles O4: the map takes every number from 1 to 19 and no other, and the opcode match is its inverse. -/
theorem opcodeMapIsABijectionWithTheStatedArities : Obligations.OpcodeMapIsABijectionWithTheStatedArities := by
  refine ⟨fun n => ⟨fun h => exists_opcodeNumber_eq h.1 h.2, ?_⟩, fun _ _ => opcodeNumber_injective, fun m => ?_⟩
  · rintro ⟨m, rfl⟩
    exact opcodeNumber_bounds m
  · cases m <;> decide

/-! ### The operand words -/

/-- Each instruction has one of the three formats, with its own operand words (R70, R72). -/
theorem instr_format (i : Instr) :
    (i.mnemonic.shape = .f0 i ∧ i.operands = []) ∨
    (∃ mk a, i.mnemonic.shape = .f1 mk ∧ i = mk a ∧ i.operands = [a]) ∨
    (∃ mk a b, i.mnemonic.shape = .f2 mk ∧ i = mk a b ∧ i.operands = [a, b]) := by
  cases i <;> simp [Instr.mnemonic, Mnemonic.shape, Instr.operands]

/-- A word of the instruction memory lies below `ICOUNT`, so the next index is a word (R56). -/
theorem toInt_add_one_of_imemAt {s : State} {w v : Word} (h : imemAt s w.toInt = some v) :
    (w + 1).toInt = w.toInt + 1 := by
  rcases imemAt_cases s w.toInt with ⟨hin, -⟩ | ⟨-, hnone⟩
  · have := Word.toInt_range s.icount
    exact toInt_add_one (by omega)
  · rw [hnone] at h
    cases h

/-- The instruction memory from index `z` on begins with the words `ws` (R56). -/
def WordsAt (s : State) (z : Int) (ws : List Word) : Prop := ∀ k (h : k < ws.length), imemAt s (z + k) = some ws[k]

theorem wordsAt_cons {s : State} {z : Int} {w : Word} {ws : List Word} :
    WordsAt s z (w :: ws) ↔ imemAt s z = some w ∧ WordsAt s (z + 1) ws := by
  constructor
  · intro h
    have hhead : imemAt s (z + (0 : Nat)) = some w := h 0 (by simp)
    rw [Nat.cast_zero, add_zero] at hhead
    refine ⟨hhead, fun k hk => ?_⟩
    have hsucc := h (k + 1) (by simpa using hk)
    rwa [Nat.cast_add, Nat.cast_one, add_comm (k : Int), ← add_assoc] at hsucc
  · rintro ⟨hhead, htail⟩ k hk
    cases k with
    | zero => simpa using hhead
    | succ k =>
      have hrest := htail k (by simpa using hk)
      rwa [add_assoc, add_comm (1 : Int)] at hrest

theorem wordsAt_congr {s t : State} (h1 : t.imem = s.imem) (h2 : t.icount = s.icount) {z : Int} {ws : List Word}
    (h : WordsAt s z ws) : WordsAt t z ws :=
  fun k hk => (imemAt_congr h1 h2 _).trans (h k hk)

/-- The words read from the instruction memory are its words. -/
theorem wordsAt_imemWordsFrom {s : State} {z : Int} {n : Nat} {ws rest : List Word}
    (h : imemWordsFrom s z n = ws ++ rest) : WordsAt s z ws := by
  induction ws generalizing z n with
  | nil => exact fun k hk => absurd hk (by simp)
  | cons w ws ih =>
    cases n with
    | zero => cases h
    | succ n =>
      rw [imemWordsFrom] at h
      split at h
      · cases h
      next v hv =>
        obtain ⟨rfl, htail⟩ := List.cons.inj h
        exact wordsAt_cons.mpr ⟨hv, ih htail⟩

/-- `Operand` where a list of words begins: it takes the first and leaves the others ahead of `ip` (R97). -/
theorem operand_of_wordsAt {s : State} {w : Word} {ws : List Word} (h : WordsAt s s.ip.toInt (w :: ws)) :
    operand s = .go w { s with ip := s.ip + 1 } ∧ WordsAt s (s.ip + 1).toInt ws := by
  obtain ⟨hw, hws⟩ := wordsAt_cons.mp h
  exact ⟨operand_go hw, by rwa [toInt_add_one_of_imemAt hw]⟩

/-- Decode of an instruction whose operand words are ahead of `ip`: it takes them all and moves `ip` past them (R97). -/
theorem decodePhase_of_wordsAt {i : Instr} {s : State} (h : WordsAt s s.ip.toInt i.operands) :
    decodePhase (opcodeWord i.mnemonic) s =
      .go i { s with ip := s.ip + BitVec.ofNat wordBits i.operands.length } := by
  rcases instr_format i with ⟨hshape, hops⟩ | ⟨mk, a, hshape, hi, hops⟩ | ⟨mk, a, b, hshape, hi, hops⟩ <;>
    simp only [decodePhase, ofOpcode_opcodeWord, hshape, hops] at h ⊢
  · simp
  · obtain ⟨hop, -⟩ := operand_of_wordsAt h
    rw [hop, Flow.bind_go, ← hi]
    rfl
  · obtain ⟨hop, hb⟩ := operand_of_wordsAt h
    obtain ⟨hop2, -⟩ := operand_of_wordsAt (s := { s with ip := s.ip + 1 }) hb
    rw [hop, Flow.bind_go, hop2, Flow.bind_go, ← hi]
    simp only [BitVec.add_assoc]
    rfl

/-- An instruction's length in words, opcode word first (R76). -/
theorem ofNat_length (i : Instr) :
    BitVec.ofNat wordBits i.length = 1 + BitVec.ofNat wordBits i.operands.length := by
  rw [Instr.operands_length, Instr.length, BitVec.ofNat_add]
  rfl

/-- Fetch and decode where the words of an instruction other than HALT stand at `ip` (R91, R95, R97). -/
theorem fetch_of_wordsAt {s : State} {i : Instr} (hi : i ≠ .halt) (h : WordsAt s s.ip.toInt (encode i)) :
    fetch s = .go i
      { tracePre s.ip (opcodeWord i.mnemonic) s with ip := s.ip + BitVec.ofNat wordBits i.length } := by
  obtain ⟨hop, hargs⟩ := wordsAt_cons.mp h
  have hne : opcodeWord i.mnemonic ≠ opcodeWord .halt := by
    intro heq
    have hm := ofOpcode_opcodeWord i.mnemonic
    rw [heq, ofOpcode_opcodeWord] at hm
    cases i <;> simp_all [Instr.mnemonic]
  rw [fetch_of_ne_halt hop hne, decodePhase_of_wordsAt, ofNat_length, ← BitVec.add_assoc]
  dsimp only
  rw [toInt_add_one_of_imemAt hop]
  exact wordsAt_congr (by simp) (by simp) hargs

/-- Words that decode at `ip` stand there. -/
theorem wordsAt_of_decode {s : State} {i : Instr} {rest : List Word}
    (h : decode (instructionWords s) = .ok (i, rest)) : WordsAt s s.ip.toInt (encode i) :=
  wordsAt_imemWordsFrom (eq_encode_append_of_decode h)

/-! ### The step -/

/-- Settles O5: the words that decode stand at `ip`, so fetch and decode go on with the instruction, which the step
executes; after HALT the end of the step adds nothing. -/
theorem stepRunsTheDecodedInstruction : Obligations.StepRunsTheDecodedInstruction := by
  intro s i rest hs hdec
  have hwords := wordsAt_of_decode hdec
  by_cases hi : i = .halt
  · subst hi
    exact (haltStopsAtItsOwnWord s hs (wordsAt_cons.mp hwords).1).1
  · rw [if_neg hi, step_of_fetch_go hs (fetch_of_wordsAt hi hwords)]

/-- Settles O6: the bounds check comes before the read. -/
theorem fetchOutsideTheProgramFaults : Obligations.FetchOutsideTheProgramFaults := by
  intro s hs hout
  have hnone : imemAt s s.ip.toInt = none := if_neg (by omega)
  exact step_of_fetch_trap hs (fetch_of_none hnone)

/-- Where the first operand word is missing, decode traps at it (R97). -/
theorem decodePhase_trap_of_first {m : Mnemonic} {s : State} {w : Word} (hm : 0 < m.arity) (hip : s.ip = w)
    (h : imemAt s w.toInt = none) :
    decodePhase (opcodeWord m) s = .trap .operandOutOfBounds w { s with ip := w } := by
  subst hip
  unfold Mnemonic.arity at hm
  simp only [decodePhase, ofOpcode_opcodeWord, operand_trap h]
  split
  next hshape => simp [hshape] at hm
  next => rfl
  next => rfl

/-- Where the first operand word is there and the second is missing, decode traps at the second (R97). -/
theorem decodePhase_trap_of_second {m : Mnemonic} {s : State} {a w : Word} (hm : 1 < m.arity)
    (ha : imemAt s s.ip.toInt = some a) (hip : s.ip + 1 = w) (h : imemAt s w.toInt = none) :
    decodePhase (opcodeWord m) s = .trap .operandOutOfBounds w { s with ip := w } := by
  subst hip
  have htrap : operand { s with ip := s.ip + 1 } = .trap .operandOutOfBounds (s.ip + 1) { s with ip := s.ip + 1 } :=
    operand_trap (s := { s with ip := s.ip + 1 }) h
  unfold Mnemonic.arity at hm
  simp only [decodePhase, ofOpcode_opcodeWord, operand_go ha, Flow.bind_go, htrap]
  split
  next hshape => simp [hshape] at hm
  next hshape => simp [hshape] at hm
  next => rfl

/-- Decode traps at the first missing operand word, whichever it is, with `ip` there (R97). -/
theorem decodePhase_trap_of_missing {m : Mnemonic} {s : State} {k : Nat} (hk : k < m.arity) (h0 : 0 ≤ s.ip.toInt)
    (hmiss : s.ip.toInt + k = s.icount.toInt) :
    decodePhase (opcodeWord m) s = .trap .operandOutOfBounds s.icount { s with ip := s.icount } := by
  have hcount : imemAt s s.icount.toInt = none := if_neg (by omega)
  have htwo : m.arity ≤ 2 := by cases m <;> decide
  obtain rfl | rfl : k = 0 ∨ k = 1 := by omega
  · have hip : s.ip = s.icount := Word.ext_toInt (by omega)
    exact decodePhase_trap_of_first hk hip hcount
  · have ha : imemAt s s.ip.toInt = some (s.imem.read s.ip.toInt.toNat) := if_pos (by omega)
    have hip : s.ip + 1 = s.icount := Word.ext_toInt (by rw [toInt_add_one_of_imemAt ha]; omega)
    exact decodePhase_trap_of_second hk ha hip hcount

/-- Settles O8: an opcode with a missing operand is not HALT; it is traced, `ip` passes it, and decode traps. -/
theorem missingOperandFaultsBeforeExecute : Obligations.MissingOperandFaultsBeforeExecute := by
  intro s m k hs hmem hk hmiss
  have hne : opcodeWord m ≠ opcodeWord .halt := by
    intro heq
    have hm := ofOpcode_opcodeWord m
    rw [heq, ofOpcode_opcodeWord, Option.some.injEq] at hm
    subst hm
    exact absurd hk (by simp [Mnemonic.arity, Mnemonic.shape])
  have hnext := toInt_add_one_of_imemAt hmem
  have h0 : 0 ≤ s.ip.toInt := by
    rcases imemAt_cases s s.ip.toInt with ⟨hin, -⟩ | ⟨-, hnone⟩
    · exact hin.1
    · rw [hnone] at hmem
      cases hmem
  have htrap := decodePhase_trap_of_missing hk
    (s := { tracePre s.ip (opcodeWord m) s with ip := s.ip + 1 }) (by dsimp only; omega)
    (by dsimp only; rw [tracePre_icount]; omega)
  rw [← fetch_of_ne_halt hmem hne] at htrap
  rw [step_of_fetch_trap hs htrap]
  simp [takeFault]

/-! ### What a step answers -/

/-- Settles O22: an instruction is its pseudocode, whose end is a next state, and HALT is one. -/
theorem everyInstructionAnswersANextState : Obligations.EveryInstructionAnswersANextState := by
  intro i s
  by_cases hi : i = .halt
  · subst hi
    exact ⟨_, rfl⟩
  · rw [exec_eq_body hi]
    obtain ⟨t, ht, -⟩ := Flow.finish_next (body i s) (instrStart i.length s)
    exact ⟨t, ht⟩

/-- Settles O9: a RUNNING core traps in fetch or decode, or executes, and each has a next state. -/
theorem stepIsEnabledExactlyWhileRunning : Obligations.StepIsEnabledExactlyWhileRunning := by
  refine fun s => ⟨fun ⟨t, h⟩ => (step_cases h).1, fun hs => ?_⟩
  cases hf : fetch s with
  | trap c info t => exact ⟨_, step_of_fetch_trap hs hf⟩
  | go i t =>
    obtain ⟨u, hu⟩ := everyInstructionAnswersANextState i t
    exact ⟨_, by rw [step_of_fetch_go hs hf, hu, retire]⟩

/-- Settles O11: the fault operation is four assignments, a cause reads as its code, and a FAULTED core has no step. -/
theorem takingAFaultWritesOnlyTheReport : Obligations.TakingAFaultWritesOnlyTheReport := by
  refine fun c info cur s => ⟨rfl, fun n hn => ?_, by simp [step]⟩
  rw [readCause, takeFault_cause]
  cases c <;> simp [causeTable] at hn <;> subst hn <;> decide

end Sys2Proof.StepProofs
end

section
/-!
SUPPORT. Reset and the host's requests (spec/70_reset_and_hazards.md R190, R192, spec/20_memory.md R57, R63).
-/

namespace Sys2Proof.HostProofs

open Sys2Proof Sys2Proof.Machine

/-- The length of a program that fits a word is `ICOUNT` (R8, R190). -/
theorem toInt_icount_construct {m : LoadImage} (h : m.program.length < 2 ^ 31) (s : State) :
    (construct m s).icount.toInt = m.program.length := by
  have hlen : (construct m s).icount = wrap m.program.length := by simp [construct, wrap]
  rw [hlen, toInt_wrap] <;> omega

/-- The instruction memory after reset is the program (R38, R56). -/
theorem imemAt_construct {m : LoadImage} (h : m.program.length < 2 ^ 31) (s : State) (k : Nat) :
    imemAt (construct m s) k = m.program[k]? := by
  have hread : (construct m s).imem.read k = m.program.getD k 0 := by
    have hprog := read_ofWords 0 k m.program
    rwa [Nat.zero_add] at hprog
  have hcount := toInt_icount_construct h s
  rcases imemAt_cases (construct m s) k with ⟨hin, hmem⟩ | ⟨hout, hmem⟩
  · have hk : k < m.program.length := by omega
    rw [hmem, Int.toNat_natCast, hread]
    simp [hk]
  · have hk : m.program.length ≤ k := by omega
    rw [hmem, List.getElem?_eq_none hk]

/-- Settles O15: every piece of state is a constant of the reset or a part of the image. -/
theorem resetLeavesTheStatedValues : Obligations.ResetLeavesTheStatedValues := fun m s h =>
  have hempty : (-1 : Word).toInt = -1 := by decide
  ⟨rfl, hempty, hempty, rfl, fun _ => rfl, imemAt_construct h s, toInt_icount_construct h s, rfl, rfl, rfl, rfl,
    rfl, rfl, rfl, rfl, rfl⟩

/-- Settles O16: `run()` is a test for READY. -/
theorem runRequestStartsOnlyFromReady : Obligations.RunRequestStartsOnlyFromReady :=
  fun _ => ⟨fun h => if_pos h, fun h => if_neg h⟩

/-- Settles O18: reset empties the stack, the globals and the trace, and lists the program in canonical form. -/
theorem invariantHoldsAfterReset : Obligations.InvariantHoldsAfterReset := by
  have hsp : State.reset.spInRange := by decide
  have hreport : State.reset.faultReportOk := by decide
  refine ⟨by decide, fun m s => ⟨hsp, ⟨?_, ?_, ?_⟩, ?_, ?_, hreport, fun _ => rfl⟩⟩
  · exact List.Pairwise.nil
  · exact ⟨List.Pairwise.nil, fun _ h => nomatch h⟩
  · exact ofWords_wf 0 m.program
  · exact fun _ h => nomatch h
  · exact fun _ h => nomatch h

/-- Settles O53: both requests are one test of `status`. -/
theorem hostReadsWheneverNotRunning : Obligations.HostReadsWheneverNotRunning := by
  refine fun s b => ⟨?_, rfl⟩
  by_cases h : s.status = .running <;> simp [readBack, hostMayRead, h]

end Sys2Proof.HostProofs
end

section
/-!
SUPPORT. Frames (spec/10_state.md R20 to R36): what an instruction's pseudocode and the step can touch at all, then who
writes `fp`, the globals, the events and the configuration.
-/

namespace Sys2Proof.FrameProofs

open Sys2Proof Sys2Proof.Machine Sys2Proof.Claims Sys2Proof.StopProofs Sys2Proof.PipelineProofs Sys2Proof.FetchProofs
  Sys2Proof.InstructionProofs

/-! ### What the pseudocode can touch -/

/-- Nothing but the frame, the globals and the events may differ. -/
def SameButRun (s t : State) : Prop :=
  t = { s with ip := t.ip, sp := t.sp, fp := t.fp, stack := t.stack, globals := t.globals, events := t.events }

/-- Nothing but `status`, the fault registers and the events may differ. -/
def SameButStop (s t : State) : Prop :=
  t = { s with
    status := t.status, cause := t.cause, faultIp := t.faultIp, faultInfo := t.faultInfo, events := t.events }

/-- No instruction's pseudocode touches the program, the configuration, `status` or the fault registers (R20, R60). -/
theorem body_sameButRun (i : Instr) (s : State) : SameButRun s (body i s).state := by
  cases i with
  | gstore off => rcases body_gstore_state off s with h | h | ⟨-, -, -, h⟩ <;> rw [h] <;> rfl
  | print => rcases body_print s with ⟨-, h⟩ | ⟨-, h⟩ <;> rw [h] <;> rfl
  | _ => rw [body_frame rfl s]; rfl

/-- What ends an instruction, a fault or HALT's stop, touches nothing the pseudocode computes with (R142, R162). -/
theorem exec_sameButStop {i : Instr} {s t : State} (h : exec i s = .next t) : SameButStop (body i s).state t := by
  by_cases hi : i = .halt
  · subst hi
    cases h
    rw [SameButStop, traceFinal_eq]
    rfl
  · rcases exec_next_cases hi h with hgo | ⟨c, info, u, htrap, rfl⟩
    · rw [hgo]; rfl
    · rw [htrap]; rfl

/-- Only PRINT sends an event in its pseudocode (R35, R36). -/
theorem body_events {i : Instr} (hi : i ≠ .print) (s : State) : (body i s).state.events = s.events := by
  cases i with
  | gstore off => rcases body_gstore_state off s with h | h | ⟨-, -, -, h⟩ <;> rw [h]
  | print => exact absurd rfl hi
  | _ => rw [body_frame rfl s]

/-- No pseudocode writes the trace (R36). -/
theorem body_trace (i : Instr) (s : State) : (body i s).state.trace = s.trace := by
  by_cases hi : i = .print
  · subst hi
    rcases body_print s with ⟨-, h⟩ | ⟨-, h⟩ <;> rw [h]
    · simp [State.trace]
    · rfl
  · rw [State.trace, body_events hi s, State.trace]

/-- The end of an instruction that is not HALT sends no event. -/
theorem exec_events {i : Instr} {s t : State} (hi : i ≠ .halt) (h : exec i s = .next t) :
    t.events = (body i s).state.events := by
  rcases exec_next_cases hi h with hgo | ⟨c, info, u, htrap, rfl⟩
  · rw [hgo]; rfl
  · rw [htrap]; rfl

/-- Every instruction but PRINT leaves `out` (R35). -/
theorem exec_out {i : Instr} {s t : State} (hi : i ≠ .print) (h : exec i s = .next t) : t.out = s.out := by
  by_cases hhalt : i = .halt
  · subst hhalt
    cases h
    exact traceFinal_out _
  · rw [State.out, exec_events hhalt h, body_events hi s, State.out]

/-- PRINT adds the top word to `out`, or faults and adds nothing (R140). -/
theorem exec_print_out {s t : State} (h : exec .print s = .next t) : t.out = s.out ∨ t.out = s.out ++ [top s] := by
  obtain ⟨-, hgo, hfault⟩ := printSendsTheTopWord s
  rcases Int.lt_or_le s.sp.toInt 0 with hneg | h0
  · rw [hfault hneg] at h
    cases h
    exact .inl rfl
  · obtain ⟨u, hu, hout, -⟩ := hgo h0
    rw [hu] at h
    cases h
    exact .inr hout

/-- Every instruction but HALT leaves the trace (R36). -/
theorem exec_trace {i : Instr} {s t : State} (hi : i ≠ .halt) (h : exec i s = .next t) : t.trace = s.trace := by
  rw [State.trace, exec_events hi h]
  exact body_trace i s

/-- The fault registers are written only by a fault (R31, R32). -/
theorem exec_report {i : Instr} {s t : State} (h : exec i s = .next t) (hok : t.status ≠ .faulted) :
    t.cause = s.cause ∧ t.faultIp = s.faultIp ∧ t.faultInfo = s.faultInfo := by
  by_cases hi : i = .halt
  · subst hi
    cases h
    exact ⟨traceFinal_cause _, traceFinal_faultIp _, traceFinal_faultInfo _⟩
  · rcases exec_next_cases hi h with hgo | ⟨c, info, u, -, rfl⟩
    · have hsame := body_sameButRun i s
      rw [hgo, SameButRun, Flow.state_go] at hsame
      rw [hsame]
      exact ⟨rfl, rfl, rfl⟩
    · exact absurd rfl hok

/-! ### The configuration -/

/-- The program, the latched configuration, the trace enable and the count of resets are the same (R33, R34, R60). -/
def SameConfig (s t : State) : Prop :=
  t.imem = s.imem ∧ t.icount = s.icount ∧ t.entry = s.entry ∧ t.gcount = s.gcount ∧ t.traceEn = s.traceEn ∧
    t.resetCount = s.resetCount

theorem SameConfig.trans {a b c : State} (h1 : SameConfig a b) (h2 : SameConfig b c) : SameConfig a c := by
  obtain ⟨h11, h12, h13, h14, h15, h16⟩ := h1
  obtain ⟨h21, h22, h23, h24, h25, h26⟩ := h2
  exact ⟨h21.trans h11, h22.trans h12, h23.trans h13, h24.trans h14, h25.trans h15, h26.trans h16⟩

theorem exec_sameConfig {i : Instr} {s t : State} (h : exec i s = .next t) : SameConfig s t := by
  have hbody : SameConfig s (body i s).state := by
    rw [body_sameButRun i s]
    exact ⟨rfl, rfl, rfl, rfl, rfl, rfl⟩
  refine hbody.trans ?_
  rw [exec_sameButStop h]
  exact ⟨rfl, rfl, rfl, rfl, rfl, rfl⟩

theorem fetch_sameConfig (s : State) : SameConfig s (fetch s).state := by
  rw [(fetch_state s).1]
  exact ⟨rfl, rfl, rfl, rfl, rfl, rfl⟩

theorem tracePost_sameConfig (s : State) : SameConfig s (tracePost s) :=
  ⟨tracePost_imem s, tracePost_icount s, tracePost_entry s, tracePost_gcount s, tracePost_traceEn s,
    tracePost_resetCount s⟩

/-- Settles O13: fetch, decode, execute and the trace unit each keep the configuration, and so does taking a fault. -/
theorem stepKeepsProgramAndConfiguration : Obligations.StepKeepsProgramAndConfiguration := by
  intro s t h
  have hfetch := fetch_sameConfig s
  obtain ⟨-, ⟨c, info, u, hf, rfl⟩ | ⟨i, u, v, hf, hexec, rfl⟩⟩ := step_cases h <;> rw [hf] at hfetch
  · exact hfetch
  · have hv : SameConfig s v := hfetch.trans (exec_sameConfig hexec)
    split
    · exact hv.trans (tracePost_sameConfig v)
    · exact hv

/-- Settles O25: an instruction is its pseudocode, which touches none of these registers, ended by a fault or a stop. -/
theorem specialRegistersFrame : Obligations.SpecialRegistersFrame := by
  intro i s t hs h
  obtain ⟨h1, h2, h3, h4, h5, h6⟩ := exec_sameConfig h
  refine ⟨h1, h2, h3, h4, h5, h6, exec_report h, fun hi => exec_out hi h, fun hi => exec_trace hi h, ?_⟩
  by_cases hi : i = .halt
  · subst hi
    cases h
    exact .inr (.inr ⟨rfl, traceFinal_status _⟩)
  · rcases exec_status hi h with hst | hst
    · exact .inl (hst.trans hs)
    · exact .inr (.inl hst)

/-! ### The output -/

/-- What fetch and decode go on with is the instruction whose opcode word is at `ip` (R71, R96). -/
theorem imemAt_of_fetch_go {s t : State} {i : Instr} (h : fetch s = .go i t) :
    imemAt s s.ip.toInt = some (opcodeWord i.mnemonic) := by
  rcases fetch_cases s with ⟨-, hf⟩ | ⟨hmem, hf⟩ | ⟨w, hmem, -, hf⟩ <;> rw [hf] at h
  · cases h
  · cases h
    exact hmem
  · rw [hmem, eq_opcodeWord_of_decodePhase_go h]

/-- The word on top depends on `sp` and the stack. -/
theorem top_congr {s t : State} (h1 : t.sp = s.sp) (h2 : t.stack = s.stack) (h3 : t.resetCount = s.resetCount) :
    top t = top s := by
  rw [top, top, h1, stackRead_congr h2 h3]

theorem fetch_top (s : State) : top (fetch s).state = top s :=
  top_congr (by rw [(fetch_state s).1]) (by rw [(fetch_state s).1]) (by rw [(fetch_state s).1])

/-- Settles O14: `out` passes unchanged through fetch, decode and the trace unit, and only PRINT adds to it, the word on
top when it was fetched. -/
theorem outputGrowsOnlyByPrint : Obligations.OutputGrowsOnlyByPrint := by
  intro s t h
  have hfetch := (fetch_state s).2
  obtain ⟨-, ⟨c, info, u, hf, rfl⟩ | ⟨i, u, v, hf, hexec, rfl⟩⟩ := step_cases h
  · rw [hf] at hfetch
    exact .inl hfetch
  · have htop := fetch_top s
    rw [hf, Flow.state_go] at hfetch htop
    have hpost : (if v.status = .running then tracePost v else v).out = v.out := by split <;> simp
    rw [hpost]
    by_cases hi : i = .print
    · subst hi
      rw [← hfetch, ← htop]
      exact (exec_print_out hexec).imp_right fun hout => ⟨imemAt_of_fetch_go hf, hout⟩
    · exact .inl ((exec_out hi hexec).trans hfetch)

/-! ### `fp` -/

/-- The frame pointer is the same. -/
def SameFp (s t : State) : Prop := t.fp = s.fp

theorem bind_sameFp {α β : Type} {s : State} {r : Flow α} {k : α → State → Flow β} (hr : SameFp s r.state)
    (hk : ∀ a t, SameFp t (k a t).state) : SameFp s (r.bind k).state :=
  Flow.bind_keeps (R := SameFp) (fun _ _ _ h1 h2 => h2.trans h1) hr hk

theorem push_sameFp (v : Word) (s : State) : SameFp s (push v s).state := by
  rcases push_cases v s with ⟨-, h⟩ | ⟨-, h⟩ <;> rw [h] <;> rfl

theorem pop_sameFp (s : State) : SameFp s (pop s).state := by
  rcases pop_cases s with ⟨-, h⟩ | ⟨-, h⟩ <;> rw [h] <;> rfl

theorem setSp_sameFp (z : Int) (s : State) : SameFp s (setSp z s).state := by
  rcases setSp_cases z s with ⟨-, h⟩ | ⟨-, h⟩ <;> rw [h] <;> rfl

theorem stackIdx_sameFp (z : Int) (s : State) : SameFp s (stackIdx z s).state := by
  rw [stackIdx_state]; rfl

theorem globalIdx_sameFp (v : Word) (s : State) : SameFp s (globalIdx v s).state := by
  rw [globalIdx_state]; rfl

theorem binary_sameFp (f : Word → Word → Word) (s : State) : SameFp s (binary f s).state :=
  bind_sameFp (pop_sameFp s) fun _ t => bind_sameFp (pop_sameFp t) fun _ u => push_sameFp _ u

theorem popBranch_sameFp (taken : Word → Bool) (addr : Word) (s : State) :
    SameFp s (popBranch taken addr s).state :=
  bind_sameFp (pop_sameFp s) fun _ _ => by split <;> rfl

theorem copyWords_sameFp (base : Int) (n left : Nat) (s : State) : SameFp s (copyWords base n left s).state := by
  induction left generalizing s with
  | zero => rfl
  | succ left ih =>
    exact bind_sameFp (bind_sameFp (stackIdx_sameFp _ s) fun _ t => bind_sameFp (stackIdx_sameFp _ t) fun _ _ => rfl)
      fun _ t => ih t

theorem initBody_sameFp (s : State) : SameFp s (initBody s).state :=
  bind_sameFp (pop_sameFp s) fun _ t => bind_sameFp (pop_sameFp t) fun _ t =>
    bind_sameFp (copyWords_sameFp _ _ _ t) fun _ t => bind_sameFp (setSp_sameFp _ t) fun _ _ => rfl

/-- The pseudocode of all but CALL and RET leaves `fp` (R24). -/
theorem body_sameFp {i : Instr} (hcall : ∀ a n, i ≠ .call a n) (hret : i ≠ .ret) (s : State) :
    SameFp s (body i s).state := by
  cases i with
  | iadd => exact binary_sameFp _ s
  | isub => exact binary_sameFp _ s
  | imul => exact binary_sameFp _ s
  | ilt => exact binary_sameFp _ s
  | ieq => exact binary_sameFp _ s
  | br addr => rfl
  | brt addr => exact popBranch_sameFp _ addr s
  | brf addr => exact popBranch_sameFp _ addr s
  | iconst k => exact push_sameFp k s
  | load off => exact bind_sameFp (stackIdx_sameFp _ s) fun _ t => push_sameFp _ t
  | store off =>
    exact bind_sameFp (pop_sameFp s) fun _ t => bind_sameFp (stackIdx_sameFp _ t) fun _ _ => rfl
  | gload off => exact bind_sameFp (globalIdx_sameFp _ s) fun _ t => push_sameFp _ t
  | gstore off =>
    exact bind_sameFp (pop_sameFp s) fun _ t => bind_sameFp (globalIdx_sameFp _ t) fun _ _ => rfl
  | print => exact bind_sameFp (pop_sameFp s) fun _ _ => rfl
  | pop => exact bind_sameFp (pop_sameFp s) fun _ _ => rfl
  | halt => rfl
  | call addr nargs => exact absurd rfl (hcall addr nargs)
  | ret => exact absurd rfl hret
  | init => exact initBody_sameFp s

/-- Settles O24: no statement of the other instructions' pseudocode assigns `fp`, and neither does a fault or a stop. -/
theorem onlyCallAndRetWriteTheFramePointer : Obligations.OnlyCallAndRetWriteTheFramePointer := by
  intro i s t h hcall hret
  rw [exec_sameButStop h]
  exact body_sameFp hcall hret s

/-! ### The globals -/

/-- Settles O30: only GSTORE leaves the frame and the events, with one write to its own slot. -/
theorem onlyGstoreWritesGlobals : Obligations.OnlyGstoreWritesGlobals := by
  intro i s t g h hg
  have hend : globalRead t g = globalRead (body i s).state g := by rw [exec_sameButStop h]; rfl
  rw [hend]
  cases i with
  | gstore off =>
    rcases body_gstore_state off s with hst | hst | ⟨-, -, -, hst⟩ <;> rw [hst]
    · rfl
    · exact read_write_other s.globals _ (hg off rfl)
  | print => rcases body_print s with ⟨-, hst⟩ | ⟨-, hst⟩ <;> rw [hst] <;> rfl
  | _ => rw [body_frame rfl s]; rfl

end Sys2Proof.FrameProofs
end

section
/-!
SUPPORT. The causes of a fault (spec/60_exceptions.md R161, R162): which causes each phase can raise, and that the fault
report names the instruction's opcode word.
-/

namespace Sys2Proof.FaultProofs

open Sys2Proof Sys2Proof.Machine Sys2Proof.Claims Sys2Proof.EncodingProofs Sys2Proof.PipelineProofs
  Sys2Proof.ArithProofs Sys2Proof.StopProofs Sys2Proof.FetchProofs Sys2Proof.StepProofs

/-! ### Which causes the pseudocode raises -/

/-- If the piece of pseudocode traps, it is with one of these causes. -/
def TrapsIn {α : Type} (L : List Cause) (r : Flow α) : Prop := ∀ c info t, r = .trap c info t → c ∈ L

section Causes
variable {α β : Type} {L : List Cause}

theorem go_trapsIn (a : α) (s : State) : TrapsIn L (.go a s) := fun _ _ _ h => nomatch h

theorem trap_trapsIn {c : Cause} (hc : c ∈ L) (info : Word) (s : State) : TrapsIn L (.trap c info s : Flow α) := by
  rintro _ _ _ ⟨⟩
  exact hc

theorem bind_trapsIn {r : Flow α} {k : α → State → Flow β} (hr : TrapsIn L r) (hk : ∀ a t, TrapsIn L (k a t)) :
    TrapsIn L (r.bind k) := by
  cases r with
  | go a t => exact hk a t
  | trap c info t => exact trap_trapsIn (hr c info t rfl) info t

theorem push_trapsIn (hc : .stackOverflow ∈ L) (v : Word) (s : State) : TrapsIn L (push v s) := by
  rcases push_cases v s with ⟨-, h⟩ | ⟨-, h⟩ <;> rw [h]
  · exact go_trapsIn _ _
  · exact trap_trapsIn hc _ _

theorem pop_trapsIn (hc : .stackUnderflow ∈ L) (s : State) : TrapsIn L (pop s) := by
  rcases pop_cases s with ⟨-, h⟩ | ⟨-, h⟩ <;> rw [h]
  · exact go_trapsIn _ _
  · exact trap_trapsIn hc _ _

theorem setSp_trapsIn (hc : .spOutOfRange ∈ L) (z : Int) (s : State) : TrapsIn L (setSp z s) := by
  rcases setSp_cases z s with ⟨-, h⟩ | ⟨-, h⟩ <;> rw [h]
  · exact go_trapsIn _ _
  · exact trap_trapsIn hc _ _

theorem stackIdx_trapsIn (hc : .stackIndexOutOfBounds ∈ L) (z : Int) (s : State) : TrapsIn L (stackIdx z s) := by
  rcases stackIdx_cases z s with ⟨-, h⟩ | ⟨-, h⟩ <;> rw [h]
  · exact go_trapsIn _ _
  · exact trap_trapsIn hc _ _

theorem globalIdx_trapsIn (hc : .globalIndexOutOfBounds ∈ L) (v : Word) (s : State) : TrapsIn L (globalIdx v s) := by
  rcases globalIdx_cases v s with ⟨-, h⟩ | ⟨-, h⟩ <;> rw [h]
  · exact go_trapsIn _ _
  · exact trap_trapsIn hc _ _

theorem operand_trapsIn (hc : .operandOutOfBounds ∈ L) (s : State) : TrapsIn L (operand s) := by
  unfold operand
  split
  · exact trap_trapsIn hc _ _
  · exact go_trapsIn _ _

theorem setIp_trapsIn (w : Word) (s : State) : TrapsIn L (setIp w s) := go_trapsIn _ _

theorem setFp_trapsIn (w : Word) (s : State) : TrapsIn L (setFp w s) := go_trapsIn _ _

/-- The push of an ALU instruction finds room where its two pops have been, unless `sp` was above its range. -/
theorem binary_trapsIn {f : Word → Word → Word} {s : State} (hu : .stackUnderflow ∈ L)
    (hroom : s.sp.toInt < 1000 ∨ .stackOverflow ∈ L) : TrapsIn L (binary f s) := by
  rcases hroom with hlt | ho
  · rcases Int.lt_or_le s.sp.toInt 1 with hfew | htwo
    · obtain ⟨info, t, h⟩ := binary_trap (f := f) hfew
      rw [h]
      exact trap_trapsIn hu _ _
    · rw [binary_go htwo hlt]
      exact go_trapsIn _ _
  · exact bind_trapsIn (pop_trapsIn hu s) fun _ t => bind_trapsIn (pop_trapsIn hu t) fun _ u => push_trapsIn ho _ u

theorem popBranch_trapsIn (hu : .stackUnderflow ∈ L) (taken : Word → Bool) (addr : Word) (s : State) :
    TrapsIn L (popBranch taken addr s) :=
  bind_trapsIn (pop_trapsIn hu s) fun _ _ => by split <;> exact go_trapsIn _ _

theorem callBody_trapsIn (ho : .stackOverflow ∈ L) (addr nargs : Word) (s : State) :
    TrapsIn L (callBody addr nargs s) :=
  bind_trapsIn (push_trapsIn ho _ s) fun _ t => bind_trapsIn (push_trapsIn ho _ t) fun _ t =>
    bind_trapsIn (push_trapsIn ho _ t) fun _ _ => go_trapsIn _ _

theorem retBody_trapsIn (hu : .stackUnderflow ∈ L) (hr : .spOutOfRange ∈ L) (ho : .stackOverflow ∈ L) (s : State) :
    TrapsIn L (retBody s) :=
  bind_trapsIn (pop_trapsIn hu s) fun _ t => bind_trapsIn (setSp_trapsIn hr _ t) fun _ t =>
    bind_trapsIn (pop_trapsIn hu t) fun _ t => bind_trapsIn (setIp_trapsIn _ t) fun _ t =>
    bind_trapsIn (pop_trapsIn hu t) fun _ t => bind_trapsIn (setFp_trapsIn _ t) fun _ t =>
    bind_trapsIn (pop_trapsIn hu t) fun _ t => bind_trapsIn (setSp_trapsIn hr _ t) fun _ t => push_trapsIn ho _ t

theorem copyWords_trapsIn (hi : .stackIndexOutOfBounds ∈ L) (base : Int) (n left : Nat) (s : State) :
    TrapsIn L (copyWords base n left s) := by
  induction left generalizing s with
  | zero => exact go_trapsIn _ _
  | succ left ih =>
    exact bind_trapsIn (bind_trapsIn (stackIdx_trapsIn hi _ s) fun _ t => bind_trapsIn (stackIdx_trapsIn hi _ t)
      fun _ _ => go_trapsIn _ _) fun _ t => ih t

theorem initBody_trapsIn (hu : .stackUnderflow ∈ L) (hi : .stackIndexOutOfBounds ∈ L) (hr : .spOutOfRange ∈ L)
    (s : State) : TrapsIn L (initBody s) :=
  bind_trapsIn (pop_trapsIn hu s) fun _ t => bind_trapsIn (pop_trapsIn hu t) fun _ t =>
    bind_trapsIn (copyWords_trapsIn hi _ _ _ t) fun _ t => bind_trapsIn (setSp_trapsIn hr _ t) fun _ _ => go_trapsIn _ _

/-- Each instruction's pseudocode raises the causes the spec lists for it (R161), and besides them only the overflow of
an ALU instruction's push with `sp` above its range. -/
theorem body_trapsIn {i : Instr} {s : State} (hL : ∀ c ∈ mayRaise i, c ∈ L)
    (hroom : s.sp.toInt < 1000 ∨ .stackOverflow ∈ L) : TrapsIn L (body i s) := by
  cases i <;> simp only [mayRaise, List.forall_mem_cons, List.not_mem_nil, false_implies, implies_true, and_true] at hL
  case iadd => exact binary_trapsIn hL hroom
  case isub => exact binary_trapsIn hL hroom
  case imul => exact binary_trapsIn hL hroom
  case ilt => exact binary_trapsIn hL hroom
  case ieq => exact binary_trapsIn hL hroom
  case br => exact go_trapsIn _ _
  case brt addr => exact popBranch_trapsIn hL _ addr s
  case brf addr => exact popBranch_trapsIn hL _ addr s
  case iconst k => exact push_trapsIn hL k s
  case load off => exact bind_trapsIn (stackIdx_trapsIn hL.1 _ s) fun _ t => push_trapsIn hL.2 _ t
  case store off =>
    exact bind_trapsIn (pop_trapsIn hL.1 s) fun _ t =>
      bind_trapsIn (stackIdx_trapsIn hL.2 _ t) fun _ _ => go_trapsIn _ _
  case gload off => exact bind_trapsIn (globalIdx_trapsIn hL.1 _ s) fun _ t => push_trapsIn hL.2 _ t
  case gstore off =>
    exact bind_trapsIn (pop_trapsIn hL.1 s) fun _ t =>
      bind_trapsIn (globalIdx_trapsIn hL.2 _ t) fun _ _ => go_trapsIn _ _
  case print => exact bind_trapsIn (pop_trapsIn hL s) fun _ _ => go_trapsIn _ _
  case pop => exact bind_trapsIn (pop_trapsIn hL s) fun _ _ => go_trapsIn _ _
  case halt => exact go_trapsIn _ _
  case call addr nargs => exact callBody_trapsIn hL addr nargs s
  case ret => exact retBody_trapsIn hL.1 hL.2.1 hL.2.2 s
  case init => exact initBody_trapsIn hL.1 hL.2.1 hL.2.2 s

end Causes

/-- The causes of the execute phase (R161). -/
def executeCauses : List Cause :=
  [.globalIndexOutOfBounds, .stackOverflow, .stackUnderflow, .stackIndexOutOfBounds, .spOutOfRange]

theorem mayRaise_subset_executeCauses (i : Instr) : ∀ c ∈ mayRaise i, c ∈ executeCauses := by
  cases i <;> simp [mayRaise, executeCauses]

/-- In every state an instruction's pseudocode raises only causes of the execute phase. -/
theorem body_trapsIn_executeCauses (i : Instr) (s : State) : TrapsIn executeCauses (body i s) :=
  body_trapsIn (mayRaise_subset_executeCauses i) (.inr (by simp [executeCauses]))

/-- An instruction that takes a fault on a core that was not FAULTED trapped in its pseudocode. -/
theorem exists_trap_of_faulted {i : Instr} {s t : State} (hs : s.status ≠ .faulted) (h : exec i s = .next t)
    (ht : t.status = .faulted) :
    ∃ c info u, body i s = .trap c info u ∧ t = takeFault c info (instrStart i.length s) u := by
  by_cases hi : i = .halt
  · subst hi
    cases h
    rw [traceFinal_status] at ht
    cases ht
  · rcases exec_next_cases hi h with hgo | htrap
    · have hstatus := body_state_status i s
      rw [hgo, Flow.state_go, ht] at hstatus
      exact absurd hstatus.symm hs
    · exact htrap

/-- A fault of the execute phase is reported at the instruction's opcode word (R162). -/
theorem faultIp_of_body_trap {i : Instr} {s u : State} {c : Cause} {info : Word} (h : body i s = .trap c info u)
    (cur : Word) : (takeFault c info cur u).faultIp = some cur := by
  have hc : c ≠ .ipOutOfBounds := by
    rintro rfl
    exact absurd (body_trapsIn_executeCauses i s _ _ _ h) (by decide)
  rw [takeFault_faultIp, if_neg hc]

/-- Settles O23: a fault of the execute phase is a trap of the instruction's pseudocode, whose causes are those listed
as long as `sp` is in range. -/
theorem instructionsRaiseOnlyTheirListedCauses : Obligations.InstructionsRaiseOnlyTheirListedCauses := by
  intro i s t hsp hs h ht
  obtain ⟨c, info, u, htrap, rfl⟩ := exists_trap_of_faulted (by simp [hs]) h ht
  exact ⟨body_trapsIn (fun _ hc => hc) (.inl hsp.2) c info u htrap, faultIp_of_body_trap htrap _⟩

/-! ### The fault report of a step -/

/-- Decode raises no other causes than an unknown opcode and a missing operand (R96, R97). -/
theorem decodePhase_trapsIn (w : Word) (s : State) :
    TrapsIn [.unknownOpcode, .operandOutOfBounds] (decodePhase w s) := by
  have hop : Cause.operandOutOfBounds ∈ [Cause.unknownOpcode, .operandOutOfBounds] := by simp
  unfold decodePhase
  split
  · exact trap_trapsIn (by simp) _ _
  · split
    · exact go_trapsIn _ _
    · exact bind_trapsIn (operand_trapsIn hop s) fun _ _ => go_trapsIn _ _
    · exact bind_trapsIn (operand_trapsIn hop s) fun _ t =>
        bind_trapsIn (operand_trapsIn hop t) fun _ _ => go_trapsIn _ _

/-- A trap of fetch or decode: the bounds check of `ip` with nothing changed, or a cause of the decode phase (R92, R96,
R97). -/
theorem fetch_trap_cases {s u : State} {c : Cause} {info : Word} (h : fetch s = .trap c info u) :
    (c = .ipOutOfBounds ∧ u = s) ∨ c ∈ [Cause.unknownOpcode, .operandOutOfBounds] := by
  rcases fetch_cases s with ⟨-, hf⟩ | ⟨-, hf⟩ | ⟨w, -, -, hf⟩ <;> rw [hf] at h
  · cases h
    exact .inl ⟨rfl, rfl⟩
  · cases h
  · exact .inr (decodePhase_trapsIn _ _ _ _ _ h)

/-- `Operand` that goes on has moved `ip` by one (R97). -/
theorem ip_of_operand_go {s t : State} {a : Word} (h : operand s = .go a t) : t.ip = s.ip + 1 := by
  unfold operand at h
  split at h <;> cases h
  rfl

/-- Decode that goes on has moved `ip` past the operand words (R97). -/
theorem ip_of_decodePhase_go {w : Word} {i : Instr} {s t : State} (h : decodePhase w s = .go i t) :
    t.ip = s.ip + BitVec.ofNat wordBits i.operands.length := by
  unfold decodePhase at h
  split at h
  · cases h
  next m _ =>
    split at h
    next hshape =>
      cases h
      simp [(List.cons.inj (encode_of_shape_f0 hshape)).2]
    next mk hshape =>
      obtain ⟨a, u, ha, hgo⟩ := exists_of_bind_go h
      cases hgo
      rw [(List.cons.inj (encode_of_shape_f1 hshape a)).2, ip_of_operand_go ha]
      rfl
    next mk hshape =>
      obtain ⟨a, u, ha, hrest⟩ := exists_of_bind_go h
      obtain ⟨b, v, hb, hgo⟩ := exists_of_bind_go hrest
      cases hgo
      rw [(List.cons.inj (encode_of_shape_f2 hshape a b)).2, ip_of_operand_go hb, ip_of_operand_go ha,
        BitVec.add_assoc]
      rfl

/-- In the execute phase of an instruction other than HALT, its opcode word is at the `ip` of the fetch (R97). -/
theorem instrStart_of_fetch_go {s u : State} {i : Instr} (hi : i ≠ .halt) (h : fetch s = .go i u) :
    instrStart i.length u = s.ip := by
  rcases fetch_cases s with ⟨-, hf⟩ | ⟨-, hf⟩ | ⟨w, -, -, hf⟩ <;> rw [hf] at h
  · cases h
  · cases h
    exact absurd rfl hi
  · have hip : u.ip = s.ip + 1 + BitVec.ofNat wordBits i.operands.length := ip_of_decodePhase_go h
    rw [instrStart, hip, ofNat_length, BitVec.add_assoc, BitVec.add_sub_cancel]

/-- The codes of the causes that a fault has are 1 to 8 (R161). -/
theorem causeCode_bounds {c : Cause} (h : c ≠ .noFault) : 1 ≤ (causeCode c).toNat ∧ (causeCode c).toNat ≤ 8 := by
  cases c with
  | noFault => exact absurd rfl h
  | _ => decide

theorem ne_noFault_of_fetch_trap {s u : State} {c : Cause} {info : Word} (h : fetch s = .trap c info u) :
    c ≠ .noFault := by
  rintro rfl
  rcases fetch_trap_cases h with ⟨hc, -⟩ | hc
  · cases hc
  · exact absurd hc (by decide)

theorem ne_noFault_of_body_trap {i : Instr} {s u : State} {c : Cause} {info : Word} (h : body i s = .trap c info u) :
    c ≠ .noFault := by
  rintro rfl
  exact absurd (body_trapsIn_executeCauses i s _ _ _ h) (by decide)

/-- Settles O12: a fault is taken in fetch or decode, at the step's `ip`, or in the execute phase, whose opcode word is
at that `ip`; no trap has the absent cause. -/
theorem faultReportIdentifiesTheInstruction : Obligations.FaultReportIdentifiesTheInstruction := by
  intro s t h ht
  obtain ⟨hs, ⟨c, info, u, hf, rfl⟩ | ⟨i, u, v, hf, hexec, rfl⟩⟩ := step_cases h
  · refine ⟨?_, rfl, causeCode_bounds (ne_noFault_of_fetch_trap hf)⟩
    rw [takeFault_faultIp]
    split
    next hc =>
      rcases fetch_trap_cases hf with ⟨-, rfl⟩ | hmem
      · rfl
      · rw [hc] at hmem
        exact absurd hmem (by decide)
    · rfl
  · have hu : u.status = .running := by simpa [hf, hs] using fetch_state_status s
    have hv : v.status = .faulted := by
      split at ht
      next hrun => rw [tracePost_status, hrun] at ht; cases ht
      · exact ht
    have hi : i ≠ .halt := by
      rintro rfl
      cases hexec
      rw [traceFinal_status] at hv
      cases hv
    rw [if_neg (by simp [hv])]
    obtain ⟨c, info, w, htrap, rfl⟩ := exists_trap_of_faulted (by simp [hu]) hexec hv
    refine ⟨?_, rfl, causeCode_bounds (ne_noFault_of_body_trap htrap)⟩
    rw [faultIp_of_body_trap htrap, instrStart_of_fetch_go hi hf]

end Sys2Proof.FaultProofs
end

section
/-!
SUPPORT. The events of a step in their order (spec/60_exceptions.md R174, R175, R178).
-/

namespace Sys2Proof.TraceProofs

open Sys2Proof Sys2Proof.Machine Sys2Proof.Claims Sys2Proof.PipelineProofs Sys2Proof.StopProofs
  Sys2Proof.StepProofs Sys2Proof.FrameProofs

/-- Reading one index after the other gives the words that stand there. -/
theorem filterMap_of_wordsAt {s : State} {z : Int} {ws : List Word} (h : WordsAt s z ws) :
    (List.range ws.length).filterMap (fun k : Nat => imemAt s (z + k)) = ws := by
  induction ws generalizing z with
  | nil => rfl
  | cons w ws ih =>
    obtain ⟨hw, hws⟩ := wordsAt_cons.mp h
    have hrest := ih hws
    have hzero : imemAt s (z + (0 : Nat)) = some w := by rwa [Nat.cast_zero, add_zero]
    rw [List.length_cons, List.range_succ_eq_map, List.filterMap_cons_some (f := fun k : Nat => imemAt s (z + k)) hzero,
      List.filterMap_map]
    congr 1
    calc _ = (List.range ws.length).filterMap (fun k : Nat => imemAt s (z + 1 + k)) := by
          refine List.filterMap_congr fun k _ => ?_
          simp only [Function.comp_apply, Nat.succ_eq_add_one, Nat.cast_add, Nat.cast_one]
          rw [add_assoc, add_comm (1 : Int)]
      _ = ws := hrest

/-- The disassembly of an instruction at `ip` shows its operand words (R174). -/
theorem traceOperands_of_wordsAt {s : State} {i : Instr} (h : WordsAt s s.ip.toInt (encode i)) :
    traceOperands s.ip (opcodeWord i.mnemonic) s = i.operands := by
  obtain ⟨-, hargs⟩ := wordsAt_cons.mp h
  simp only [traceOperands, ofOpcode_opcodeWord, ← Instr.operands_length, bind_pure_comp, List.map_eq_map,
    List.filterMap_map]
  exact filterMap_of_wordsAt hargs

/-- The record before an instruction (R174). -/
theorem tracePre_events {s : State} {i : Instr} (h : WordsAt s s.ip.toInt (encode i)) :
    (tracePre s.ip (opcodeWord i.mnemonic) s).events =
      s.events ++ (if s.traceEn then [.record (.disasm s.ip (opcodeWord i.mnemonic) i.operands)] else []) := by
  rw [tracePre, emit_events, traceOperands_of_wordsAt h]

/-- The execute phase of an instruction other than HALT: the word PRINT sends, if it did not fault (R35, R140). -/
theorem exec_events_eq {i : Instr} {s t : State} (hs : s.status = .running) (hi : i ≠ .halt)
    (h : exec i s = .next t) :
    t.events = s.events ++ (if i = .print ∧ t.status = .running then [.output (top s)] else []) := by
  by_cases hprint : i = .print
  · subst hprint
    rw [exec_eq_body hi] at h
    rcases body_print s with ⟨-, hgo⟩ | ⟨-, htrap⟩
    · rw [hgo] at h
      cases h
      rw [if_pos ⟨rfl, hs⟩]
      rfl
    · rw [htrap] at h
      cases h
      simp
  · rw [exec_events hi h, body_events hprint s, if_neg (fun hc => hprint hc.1), List.append_nil]

/-- The end of a step: the dump of the live stack unless the instruction stopped the core (R175). -/
theorem retire_events {s t : State} (h : retire (.next s) = .next t) :
    t.status = s.status ∧ t.events = s.events ++
      (if s.traceEn ∧ t.status = .running then [.record (.stackDump (liveStack t))] else []) := by
  by_cases hrun : s.status = .running
  · simp only [retire, if_pos hrun] at h
    cases h
    have hlive : liveStack (tracePost s) = liveStack s := by
      rw [liveStack, tracePost_sp]
      exact List.map_congr_left fun i _ =>
        congrArg (Prod.mk i) (stackRead_congr (tracePost_stack s) (tracePost_resetCount s) i)
    rw [tracePost_status, hlive, hrun]
    refine ⟨rfl, ?_⟩
    rw [tracePost, emit_events]
    simp
  · rw [retire_of_not_running hrun] at h
    cases h
    simp [hrun]

/-- Settles O21: the record before the instruction, the word it sent and the record after it are appended in this order,
and the word is the top of the stack that the fetch left alone. -/
theorem traceRecordsSurroundTheOutput : Obligations.TraceRecordsSurroundTheOutput := by
  intro s t i rest hs hdec hi h
  have hwords := wordsAt_of_decode hdec
  rw [step_of_fetch_go hs (fetch_of_wordsAt hi hwords)] at h
  obtain ⟨v, hexec⟩ := everyInstructionAnswersANextState i
    { tracePre s.ip (opcodeWord i.mnemonic) s with ip := s.ip + BitVec.ofNat wordBits i.length }
  rw [hexec] at h
  obtain ⟨hstatus, hend⟩ := retire_events h
  have hmid := exec_events_eq (by simp [hs]) hi hexec
  have hen : v.traceEn = s.traceEn := by
    obtain ⟨-, -, -, -, hen, -⟩ := exec_sameConfig hexec
    rw [hen, tracePre_traceEn]
  have htop : top
      { tracePre s.ip (opcodeWord i.mnemonic) s with ip := s.ip + BitVec.ofNat wordBits i.length } = top s :=
    top_congr (by simp) (by simp) (by simp)
  rw [hend, hmid, tracePre_events hwords, htop, hen, hstatus]

end Sys2Proof.TraceProofs
end

section
/-!
SUPPORT. The invariant of every state a run reaches (spec/10_state.md R23 to R36): the stack part is kept by every
statement of the pseudocode, the other parts by every phase of the step.
-/

namespace Sys2Proof.InvariantProofs

open Sys2Proof Sys2Proof.Machine Sys2Proof.PipelineProofs Sys2Proof.FetchProofs Sys2Proof.StopProofs
  Sys2Proof.FrameProofs Sys2Proof.FaultProofs

/-! ### The stack -/

/-- `sp` in range, and the stack memory in canonical form and inside its bounds (R23, R25). -/
def StackOk (s : State) : Prop := s.spInRange ∧ s.stack.Rising ∧ s.stack.below stackCapacity

theorem stackOk_of_sp {s t : State} {z : Int} (h : StackOk s) (hstack : t.stack = s.stack) (hsp : t.sp.toInt = z)
    (hlo : -1 ≤ z) (hhi : z < 1000) : StackOk t := by
  subst hsp
  exact ⟨⟨hlo, hhi⟩, by rw [hstack]; exact h.2⟩

theorem stackOk_insert {s : State} (h : StackOk s) {i : Nat} (hi : i < 1000) (v : Word) :
    StackOk { s with stack := s.stack.insert i v } :=
  ⟨h.1, insert_rising h.2.1 i v, insert_below h.2.2 hi v⟩

/-- The sequence of two statements that keep the stack in order keeps it in order. -/
theorem bind_stackOk {α β : Type} {r : Flow α} {k : α → State → Flow β} (hr : StackOk r.state)
    (hk : ∀ a t, StackOk t → StackOk (k a t).state) : StackOk (r.bind k).state := by
  cases r with
  | go a t => exact hk a t hr
  | trap c info t => exact hr

theorem push_stackOk {s : State} (h : StackOk s) (v : Word) : StackOk (push v s).state := by
  obtain ⟨hlo, hhi⟩ := h.1
  rcases push_cases v s with ⟨hroom, hpush⟩ | ⟨-, hpush⟩ <;> rw [hpush]
  · have hsp : (s.sp + 1).toInt = s.sp.toInt + 1 := toInt_add_one (by omega)
    exact stackOk_of_sp (stackOk_insert h (by omega) v) rfl hsp (by omega) (by omega)
  · exact h

theorem pop_stackOk {s : State} (h : StackOk s) : StackOk (pop s).state := by
  obtain ⟨hlo, hhi⟩ := h.1
  rw [stackCapacity_eq] at hhi
  rcases pop_cases s with ⟨h0, hpop⟩ | ⟨-, hpop⟩ <;> rw [hpop]
  · have hsp : (s.sp - 1).toInt = s.sp.toInt - 1 := toInt_sub_one (by omega)
    exact stackOk_of_sp h rfl hsp (by omega) (by omega)
  · exact h

theorem setSp_stackOk {s : State} (h : StackOk s) (z : Int) : StackOk (setSp z s).state := by
  rcases setSp_cases z s with ⟨⟨hlo, hhi⟩, hset⟩ | ⟨-, hset⟩ <;> rw [hset]
  · have hsp : (wrap z).toInt = z := toInt_wrap (by omega) (by omega)
    exact stackOk_of_sp h rfl hsp (by omega) (by omega)
  · exact h

/-- After `StackIdx` has gone on, its index is inside the stack memory (R101). -/
theorem stackIdx_bind_stackOk {β : Type} {z : Int} {s : State} {k : Nat → State → Flow β} (h : StackOk s)
    (hk : ∀ i, i < 1000 → StackOk (k i s).state) : StackOk ((stackIdx z s).bind k).state := by
  rcases stackIdx_cases z s with ⟨⟨hlo, hhi⟩, hidx⟩ | ⟨-, hidx⟩ <;> rw [hidx]
  · exact hk _ (by omega)
  · exact h

theorem globalIdx_stackOk {s : State} (h : StackOk s) (v : Word) : StackOk (globalIdx v s).state := by
  rwa [globalIdx_state]

theorem binary_stackOk (f : Word → Word → Word) {s : State} (h : StackOk s) : StackOk (binary f s).state :=
  bind_stackOk (pop_stackOk h) fun _ _ h => bind_stackOk (pop_stackOk h) fun _ _ h => push_stackOk h _

theorem popBranch_stackOk (taken : Word → Bool) (addr : Word) {s : State} (h : StackOk s) :
    StackOk (popBranch taken addr s).state :=
  bind_stackOk (pop_stackOk h) fun _ _ h => by split <;> exact h

theorem callBody_stackOk (addr nargs : Word) {s : State} (h : StackOk s) : StackOk (callBody addr nargs s).state :=
  bind_stackOk (push_stackOk h _) fun _ _ h => bind_stackOk (push_stackOk h _) fun _ _ h =>
    bind_stackOk (push_stackOk h _) fun _ _ h => h

theorem retBody_stackOk {s : State} (h : StackOk s) : StackOk (retBody s).state :=
  bind_stackOk (pop_stackOk h) fun rv _ h => bind_stackOk (setSp_stackOk h _) fun _ _ h =>
    bind_stackOk (pop_stackOk h) fun ra t h => bind_stackOk (r := setIp ra t) h fun _ _ h =>
    bind_stackOk (pop_stackOk h) fun fp t h => bind_stackOk (r := setFp fp t) h fun _ _ h =>
    bind_stackOk (pop_stackOk h) fun _ _ h => bind_stackOk (setSp_stackOk h _) fun _ _ h => push_stackOk h rv

theorem copyWords_stackOk (base : Int) (n left : Nat) {s : State} (h : StackOk s) :
    StackOk (copyWords base n left s).state := by
  induction left generalizing s with
  | zero => exact h
  | succ left ih =>
    refine bind_stackOk ?_ fun _ _ h => ih h
    exact stackIdx_bind_stackOk h fun _ _ => stackIdx_bind_stackOk h fun _ hdst => stackOk_insert h hdst _

theorem initBody_stackOk {s : State} (h : StackOk s) : StackOk (initBody s).state :=
  bind_stackOk (pop_stackOk h) fun _ _ h => bind_stackOk (pop_stackOk h) fun _ _ h =>
    bind_stackOk (copyWords_stackOk _ _ _ h) fun _ _ h => bind_stackOk (setSp_stackOk h _) fun _ _ h => h

/-- Every instruction's pseudocode keeps the stack in order. -/
theorem body_stackOk (i : Instr) {s : State} (h : StackOk s) : StackOk (body i s).state := by
  cases i with
  | iadd => exact binary_stackOk _ h
  | isub => exact binary_stackOk _ h
  | imul => exact binary_stackOk _ h
  | ilt => exact binary_stackOk _ h
  | ieq => exact binary_stackOk _ h
  | br addr => exact h
  | brt addr => exact popBranch_stackOk _ addr h
  | brf addr => exact popBranch_stackOk _ addr h
  | iconst k => exact push_stackOk h k
  | load off => exact stackIdx_bind_stackOk h fun _ _ => push_stackOk h _
  | store off =>
    exact bind_stackOk (pop_stackOk h) fun _ _ h => stackIdx_bind_stackOk h fun _ hi => stackOk_insert h hi _
  | gload off => exact bind_stackOk (globalIdx_stackOk h off) fun _ _ h => push_stackOk h _
  | gstore off =>
    exact bind_stackOk (pop_stackOk h) fun _ _ h => bind_stackOk (globalIdx_stackOk h off) fun _ _ h => h
  | print => exact bind_stackOk (pop_stackOk h) fun _ _ h => h
  | pop => exact bind_stackOk (pop_stackOk h) fun _ _ h => h
  | halt => exact h
  | call addr nargs => exact callBody_stackOk addr nargs h
  | ret => exact retBody_stackOk h
  | init => exact initBody_stackOk h

/-! ### The globals -/

/-- The globals in canonical form and inside their bounds (R26). -/
def GlobalsOk (s : State) : Prop := s.globals.wf ∧ s.globals.below s.gcount.toInt.toNat

theorem body_globalsOk (i : Instr) {s : State} (h : GlobalsOk s) : GlobalsOk (body i s).state := by
  cases i with
  | gstore off =>
    rcases body_gstore_state off s with hst | hst | ⟨-, hlo, hhi, hst⟩ <;> rw [hst]
    · exact h
    · exact h
    · exact ⟨write_wf h.1 _ _, write_below h.2 (by omega) _⟩
  | print => rcases body_print s with ⟨-, hst⟩ | ⟨-, hst⟩ <;> rw [hst] <;> exact h
  | _ => rw [body_frame rfl s]; exact h

/-! ### The fault report and the trace -/

/-- Taking a fault that has a cause leaves a report (R162). -/
theorem takeFault_faultReportOk {c : Cause} (hc : c ≠ .noFault) (info cur : Word) (s : State) :
    (takeFault c info cur s).faultReportOk :=
  ⟨iff_of_true hc rfl, iff_of_true rfl rfl, iff_of_true rfl rfl⟩

theorem exec_faultReportOk {i : Instr} {s t : State} (hs : s.status = .running) (hok : s.faultReportOk)
    (h : exec i s = .next t) : t.faultReportOk := by
  by_cases ht : t.status = .faulted
  · obtain ⟨c, info, u, htrap, rfl⟩ := exists_trap_of_faulted (by simp [hs]) h ht
    exact takeFault_faultReportOk (ne_noFault_of_body_trap htrap) _ _ _
  · obtain ⟨h1, h2, h3⟩ := exec_report h ht
    unfold State.faultReportOk at hok ⊢
    rw [h1, h2, h3]
    simpa [hs, ht] using hok

/-- With tracing off no instruction adds a record (R36). -/
theorem exec_trace_off {i : Instr} {s t : State} (hoff : s.traceEn = false) (h : exec i s = .next t) :
    t.trace = s.trace := by
  by_cases hi : i = .halt
  · subst hi
    cases h
    rw [traceFinal_eq, if_neg (by simp [hoff]), List.append_nil]
    rfl
  · exact exec_trace hi h

/-- With tracing off fetch and decode add no record (R36). -/
theorem fetch_trace_off {s : State} (hoff : s.traceEn = false) : (fetch s).state.trace = s.trace := by
  rcases fetch_cases s with ⟨-, hf⟩ | ⟨-, hf⟩ | ⟨w, -, -, hf⟩ <;> rw [hf]
  · rfl
  · rfl
  · rw [decodePhase_state, tracePre, emit_off hoff]
    rfl

/-! ### The invariant -/

/-- The invariant in the parts that the phases of a step keep. -/
theorem inv_iff {s : State} : s.Inv ↔
    StackOk s ∧ GlobalsOk s ∧ s.imem.wf ∧ s.faultReportOk ∧ (s.traceEn = false → s.trace = []) :=
  ⟨fun ⟨hsp, ⟨hst, hgl, him⟩, hsb, hgb, hrep, htr⟩ => ⟨⟨hsp, hst, hsb⟩, ⟨hgl, hgb⟩, him, hrep, htr⟩,
    fun ⟨⟨hsp, hst, hsb⟩, ⟨hgl, hgb⟩, him, hrep, htr⟩ => ⟨hsp, ⟨hst, hgl, him⟩, hsb, hgb, hrep, htr⟩⟩

/-- Fetch and decode keep the invariant: they move `ip` and, with tracing on, add a record. -/
theorem fetch_inv {s : State} (h : s.Inv) : (fetch s).state.Inv := by
  have htrace := fun hoff => fetch_trace_off (s := s) hoff
  rw [inv_iff] at h ⊢
  obtain ⟨hst, hgl, him, hrep, htr⟩ := h
  obtain ⟨-, -, -, -, hen, -⟩ := fetch_sameConfig s
  refine ⟨?_, ?_, ?_, ?_, fun hoff => ?_⟩
  · rw [(fetch_state s).1]; exact hst
  · rw [(fetch_state s).1]; exact hgl
  · rw [(fetch_state s).1]; exact him
  · rw [(fetch_state s).1]; exact hrep
  · rw [hen] at hoff
    rw [htrace hoff, htr hoff]

/-- Taking a fault that has a cause keeps the invariant. -/
theorem takeFault_inv {c : Cause} (hc : c ≠ .noFault) {info cur : Word} {s : State} (h : s.Inv) :
    (takeFault c info cur s).Inv := by
  rw [inv_iff] at h ⊢
  obtain ⟨hst, hgl, him, -, htr⟩ := h
  exact ⟨hst, hgl, him, takeFault_faultReportOk hc info cur s, htr⟩

/-- Every instruction keeps the invariant. -/
theorem exec_inv {i : Instr} {s t : State} (hs : s.status = .running) (hinv : s.Inv) (h : exec i s = .next t) :
    t.Inv := by
  rw [inv_iff] at hinv ⊢
  obtain ⟨hst, hgl, him, hrep, htr⟩ := hinv
  obtain ⟨himem, -, -, -, hen, -⟩ := exec_sameConfig h
  refine ⟨?_, ?_, by rwa [himem], exec_faultReportOk hs hrep h, fun hoff => ?_⟩
  · rw [exec_sameButStop h]; exact body_stackOk i hst
  · rw [exec_sameButStop h]; exact body_globalsOk i hgl
  · rw [hen] at hoff
    rw [exec_trace_off hoff h, htr hoff]

/-- The record at the end of a step keeps the invariant: it is there only with tracing on. -/
theorem tracePost_inv {s : State} (h : s.Inv) : (tracePost s).Inv := by
  unfold tracePost emit
  split
  next hon =>
    rw [inv_iff] at h ⊢
    obtain ⟨hst, hgl, him, hrep, -⟩ := h
    exact ⟨hst, hgl, him, hrep, fun hoff => absurd (hon.symm.trans hoff) (by simp)⟩
  · exact h

/-- Settles O19: each phase of a step keeps the invariant, and a fault it takes has a cause. -/
theorem everyStepKeepsTheInvariant : Obligations.EveryStepKeepsTheInvariant := by
  intro s t hinv h
  have hfetch := fetch_inv hinv
  have hstatus := fetch_state_status s
  obtain ⟨hs, ⟨c, info, u, hf, rfl⟩ | ⟨i, u, v, hf, hexec, rfl⟩⟩ := step_cases h <;> rw [hf] at hfetch hstatus
  · exact takeFault_inv (ne_noFault_of_fetch_trap hf) hfetch
  · have hv : v.Inv := exec_inv (hstatus.trans hs) hfetch hexec
    split
    · exact tracePost_inv hv
    · exact hv

end Sys2Proof.InvariantProofs
end

section
/-!
SUPPORT. CALL, RET and INIT run to their ends (spec/45_call.md R150 to R154): the three pushes, the linkage read back
through `fp`, and the ascending copy, of which each step extends what the earlier ones have copied.
-/

namespace Sys2Proof.CallProofs

open Sys2Proof Sys2Proof.Machine Sys2Proof.Claims Sys2Proof.InstructionProofs

/-! ### CALL -/

/-- CALL with three free slots (R150). -/
theorem callBody_go {addr nargs : Word} {s : State} (hlo : -1 ≤ s.sp.toInt) (hhi : s.sp.toInt ≤ 996) :
    callBody addr nargs s = .go () { s with
      sp := s.sp + 3, fp := s.sp + 3, ip := addr
      stack := ((s.stack.insert (s.sp.toInt + 1).toNat nargs).insert (s.sp.toInt + 2).toNat s.fp).insert
        (s.sp.toInt + 3).toNat s.ip } := by
  have hsp1 : (s.sp + 1).toInt = s.sp.toInt + 1 := toInt_add_one (by omega)
  have hsp2 : (s.sp + 1 + 1).toInt = s.sp.toInt + 2 := by rw [toInt_add_one] <;> omega
  have hsp3 : s.sp + 1 + 1 + 1 = s.sp + 3 := by rw [BitVec.add_assoc, BitVec.add_assoc]; rfl
  have hslot2 : s.sp.toInt + 1 + 1 = s.sp.toInt + 2 := by omega
  have hslot3 : s.sp.toInt + 2 + 1 = s.sp.toInt + 3 := by omega
  rw [callBody, push_go (by omega), Flow.bind_go, push_go (by dsimp only; omega), Flow.bind_go,
    push_go (by dsimp only; omega), Flow.bind_go, setFp_eq, Flow.bind_go, setIp_eq]
  simp only [hsp1, hsp2, hsp3, hslot2, hslot3]

/-- CALL with two free slots: the third push faults, two words stored (R150). -/
theorem callBody_trap_of_two {addr nargs : Word} {s : State} (h : s.sp.toInt = 997) :
    callBody addr nargs s = .trap .stackOverflow 999
      { s with sp := 999, stack := (s.stack.insert 998 nargs).insert 999 s.fp } := by
  have hsp1 : s.sp + 1 = 998 := by rw [eq_wrap_of_toInt h]; decide
  have h998 : (998 : Word).toInt = 998 := by decide
  have h999 : (999 : Word).toInt = 999 := by decide
  rw [callBody, push_go (by omega), Flow.bind_go, hsp1, h, push_go (by dsimp only; omega), Flow.bind_go]
  simp only [h998]
  rw [show (998 : Word) + 1 = 999 by decide, push_trap (by dsimp only; omega), Flow.bind_trap]
  rfl

/-- CALL with one free slot: the second push faults, one word stored (R150). -/
theorem callBody_trap_of_one {addr nargs : Word} {s : State} (h : s.sp.toInt = 998) :
    callBody addr nargs s = .trap .stackOverflow 999 { s with sp := 999, stack := s.stack.insert 999 nargs } := by
  have hsp1 : s.sp + 1 = 999 := by rw [eq_wrap_of_toInt h]; decide
  have h999 : (999 : Word).toInt = 999 := by decide
  rw [callBody, push_go (by omega), Flow.bind_go, hsp1, h, push_trap (by dsimp only; omega), Flow.bind_trap]
  rfl

/-- CALL on a full stack: the first push faults (R150). -/
theorem callBody_trap_of_none {addr nargs : Word} {s : State} (h : 999 ≤ s.sp.toInt) :
    callBody addr nargs s = .trap .stackOverflow s.sp s := by
  rw [callBody, push_trap (by omega), Flow.bind_trap]

/-- Settles O46: the three pushes with three, two, one and no free slot. -/
theorem callPushesTheLinkageAndJumps : Obligations.CallPushesTheLinkageAndJumps :=
  fun _ _ _ => ⟨rfl, fun hlo => ⟨fun hhi => exec_of_body_go (callBody_go hlo hhi),
    fun h => faults_of_body_trap (callBody_trap_of_two h), fun h => faults_of_body_trap (callBody_trap_of_one h),
    fun h => faults_of_body_trap (callBody_trap_of_none h)⟩⟩

/-! ### RET -/

/-- RET's first pop, and then `sp` back to `fp` (R151). -/
theorem retBody_of_fp {s : State} (h0 : 0 ≤ s.sp.toInt) (hlo : -1 ≤ s.fp.toInt) (hhi : s.fp.toInt < 1000) :
    retBody s =
      (pop { s with sp := s.fp }).bind fun ra t => (setIp ra t).bind fun _ t => (pop t).bind fun callerFp t =>
        (setFp callerFp t).bind fun _ t => (pop t).bind fun nargs t =>
          (setSp (t.sp.toInt - nargs.toInt) t).bind fun _ t => push (top s) t := by
  rw [retBody, pop_go h0, Flow.bind_go, setSp_go hlo hhi, Flow.bind_go, wrap_toInt]
  rfl

/-- RET with a whole linkage: the return address, the caller's `fp` and the count are read, and what is left is to drop
the arguments and push the value (R151). -/
theorem retBody_of_linkage {s : State} (h0 : 0 ≤ s.sp.toInt) (hlo : 2 ≤ s.fp.toInt) (hhi : s.fp.toInt < 1000) :
    retBody s =
      (setSp (s.fp.toInt - 3 - (stackRead s (s.fp.toInt - 2).toNat).toInt) { s with
        ip := stackRead s s.fp.toInt.toNat, fp := stackRead s (s.fp.toInt - 1).toNat, sp := s.fp - 3 }).bind
        fun _ t => push (top s) t := by
  have hfp1 : (s.fp - 1).toInt = s.fp.toInt - 1 := toInt_sub_one (by omega)
  have hfp2 : (s.fp - 1 - 1).toInt = s.fp.toInt - 2 := by rw [toInt_sub_one] <;> omega
  have hfp3 : (s.fp - 1 - 1 - 1).toInt = s.fp.toInt - 3 := by rw [toInt_sub_one] <;> omega
  have hword : s.fp - 1 - 1 - 1 = s.fp - 3 := by
    rw [BitVec.sub_sub, BitVec.sub_sub]
    rfl
  rw [retBody_of_fp h0 (by omega) hhi, pop_go (by dsimp only; omega), Flow.bind_go, setIp_eq, Flow.bind_go,
    pop_go (by dsimp only; omega), Flow.bind_go, setFp_eq, Flow.bind_go, pop_go (by dsimp only; omega), Flow.bind_go]
  simp only [hfp1, hfp2, hfp3]
  rw [hword]
  rfl

/-- Settles O47: with the linkage read, the new `sp` is in range and has room for the value, is out of range, or has no
room. -/
theorem retRestoresTheCaller : Obligations.RetRestoresTheCaller := by
  refine ⟨rfl, fun s n d h0 hlo hhi hn hd => ?_⟩
  have hbody : body .ret s = _ := retBody_of_linkage h0 hlo hhi
  rw [← hn, ← hd] at hbody
  refine ⟨fun h1 h2 => ?_, fun h => ?_, fun h => ?_⟩
  · have hsp : (wrap d).toInt = d := toInt_wrap (by omega) (by omega)
    have hone : wrap d + 1 = wrap (d + 1) := by rw [wrap, wrap, BitVec.ofInt_add]; rfl
    rw [setSp_go h1 (by omega), Flow.bind_go, push_go (by dsimp only; omega)] at hbody
    simp only [hsp, hone] at hbody
    exact exec_of_body_go hbody
  · rw [setSp_trap h, Flow.bind_trap] at hbody
    exact faults_of_body_trap hbody
  · subst h
    have h999 : (wrap 999).toInt = 999 := by decide
    rw [setSp_go (by omega) (by omega), Flow.bind_go, push_trap (by dsimp only; omega)] at hbody
    exact faults_of_body_trap hbody

/-- `Pop` where `sp` stands below the stack (R99). -/
theorem pop_trap_of_sp_eq {s : State} (h : s.sp = -1) : pop s = .trap .stackUnderflow (-1) s := by
  rw [pop_trap (by rw [h]; decide), h]

/-- Settles O48: each statement before the whole linkage is read, at the value of `sp` or `fp` where it faults. -/
theorem retFaultsWithoutAWholeLinkage : Obligations.RetFaultsWithoutAWholeLinkage := by
  refine fun s => ⟨fun h => ?_, fun h0 => ⟨fun h => ?_, fun h => ?_, fun h => ?_, fun h => ?_⟩⟩ <;>
    refine faults_of_body_trap (show retBody s = _ from ?_)
  · rw [retBody, pop_trap h, Flow.bind_trap]
  · rw [retBody, pop_go h0, Flow.bind_go, setSp_trap h, Flow.bind_trap, wrap_toInt]
  · have hfp : s.fp = -1 := (eq_wrap_of_toInt h).trans (by decide)
    rw [retBody_of_fp h0 (by omega) (by omega), hfp, pop_trap_of_sp_eq rfl, Flow.bind_trap]
  · rw [retBody_of_fp h0 (by omega) (by omega), pop_go (by dsimp only; omega), Flow.bind_go, setIp_eq, Flow.bind_go,
      sub_one_of_toInt_zero h, pop_trap_of_sp_eq (by rfl), Flow.bind_trap, h]
    rfl
  · have hfp1 : (s.fp - 1).toInt = 0 := by rw [toInt_sub_one] <;> omega
    rw [retBody_of_fp h0 (by omega) (by omega), pop_go (by dsimp only; omega), Flow.bind_go, setIp_eq, Flow.bind_go,
      pop_go (by dsimp only; omega), Flow.bind_go, setFp_eq, Flow.bind_go, sub_one_of_toInt_zero hfp1,
      pop_trap_of_sp_eq (by rfl), Flow.bind_trap]
    simp only [h, hfp1]
    rfl

/-! ### CALL, then RET -/

/-- A slot just written reads as its word, whatever the memory was before. -/
theorem stackRead_insert_same (s : State) (m : Memory) (i : Nat) (v : Word) :
    stackRead { s with stack := m.insert i v } i = v :=
  stackRead_stackWrite_same { s with stack := m } i v

/-- A slot reads through a write to another slot. -/
theorem stackRead_insert_other (s : State) (m : Memory) {i k : Nat} (v : Word) (h : k ≠ i) :
    stackRead { s with stack := m.insert i v } k = stackRead { s with stack := m } k :=
  stackRead_stackWrite_other { s with stack := m } v h

/-- The three linkage words that CALL leaves (R150, R153). -/
theorem linkage_of_call {s : State} {nargs : Word} {m : Memory} (h : -1 ≤ s.sp.toInt)
    (hm : m = ((s.stack.insert (s.sp.toInt + 1).toNat nargs).insert (s.sp.toInt + 2).toNat s.fp).insert
      (s.sp.toInt + 3).toNat s.ip) :
    stackRead { s with stack := m } (s.sp.toInt + 1).toNat = nargs ∧
    stackRead { s with stack := m } (s.sp.toInt + 2).toNat = s.fp ∧
    stackRead { s with stack := m } (s.sp.toInt + 3).toNat = s.ip := by
  subst hm
  refine ⟨?_, ?_, stackRead_insert_same _ _ _ _⟩
  · rw [stackRead_insert_other _ _ _ (by omega), stackRead_insert_other _ _ _ (by omega), stackRead_insert_same]
  · rw [stackRead_insert_other _ _ _ (by omega), stackRead_insert_same]

/-- Settles O52: RET reads through `fp` the linkage that CALL left there, and the saved count drops the arguments. -/
theorem callThenRetRestoresTheCaller : Obligations.CallThenRetRestoresTheCaller := by
  intro s addr nargs hlo hhi hn hdepth
  rw [State.depth] at hdepth
  obtain ⟨hnargs, hfp, hip⟩ := linkage_of_call (nargs := nargs) hlo rfl
  have hcall := ((callPushesTheLinkageAndJumps addr nargs s).2 hlo).1 hhi
  refine ⟨_, hcall, rfl, fun t htfp hlow hhigh hkeep => ?_⟩
  have hthree : (s.sp + 3).toInt = s.sp.toInt + 3 := by
    have h3 : (3 : Word).toInt = 3 := by decide
    rw [toInt_add_of_range] <;> omega
  dsimp only at htfp hlow hkeep
  rw [hthree] at hlow hkeep
  have htfp3 : t.fp.toInt = s.sp.toInt + 3 := by rw [htfp, hthree]
  have hr1 := (hkeep (s.sp.toInt + 1).toNat (by omega)).trans hnargs
  have hr2 := (hkeep (s.sp.toInt + 2).toNat (by omega)).trans hfp
  have hr3 := (hkeep (s.sp.toInt + 3).toNat (by omega)).trans hip
  have hcount : nargs.toInt = (stackRead t (t.fp.toInt - 2).toNat).toInt := by
    rw [htfp3, show s.sp.toInt + 3 - 2 = s.sp.toInt + 1 by omega, hr1]
  have hret := (retRestoresTheCaller.2 t nargs.toInt (s.sp.toInt - nargs.toInt) (by omega) (by omega) (by omega) hcount
    (by omega)).1 (by omega) (by omega)
  have hsp : (wrap (s.sp.toInt - nargs.toInt + 1)).toInt = s.sp.toInt - nargs.toInt + 1 :=
    toInt_wrap (by omega) (by omega)
  refine ⟨_, hret, ?_, ?_, ?_, ?_⟩
  · rw [State.depth, State.depth, hsp]
    omega
  · dsimp only
    rw [htfp3, show s.sp.toInt + 3 - 1 = s.sp.toInt + 2 by omega, hr2]
  · dsimp only
    rw [htfp3, hr3]
  · rw [top, hsp]
    exact stackRead_insert_same t _ _ _

/-! ### INIT -/

/-- INIT's two pops (R152). -/
theorem initBody_of_two {s : State} (h : 1 ≤ s.sp.toInt) :
    initBody s =
      (copyWords (s.sp.toInt - 1 - (top s).toInt) (top s).toInt.toNat (top s).toInt.toNat
        { s with sp := s.sp - 2 }).bind fun _ t =>
        (setSp (t.sp.toInt - (top s).toInt) t).bind fun _ t => setIp (second s) t := by
  have hsp1 : (s.sp - 1).toInt = s.sp.toInt - 1 := toInt_sub_one (by omega)
  have hsp2 : (s.sp - 1 - 1).toInt = s.sp.toInt - 2 := by rw [toInt_sub_one] <;> omega
  have hword : s.sp - 1 - 1 = s.sp - 2 := by rw [BitVec.sub_sub]; rfl
  rw [initBody, pop_go (by omega), Flow.bind_go, pop_go (by dsimp only; omega), Flow.bind_go]
  simp only [hsp2]
  rw [hword, hsp1, show s.sp.toInt - 2 - (stackRead s s.sp.toInt.toNat).toInt + 1 =
    s.sp.toInt - 1 - (stackRead s s.sp.toInt.toNat).toInt by omega]
  rfl

theorem toInt_sub_two {s : State} (h : 1 ≤ s.sp.toInt) : (s.sp - 2).toInt = s.sp.toInt - 2 := by
  have hrange := Word.toInt_range s.sp
  have h2 : (2 : Word).toInt = 2 := by decide
  rw [toInt_sub_of_range] <;> omega

/-- One copied word, both indices inside the stack memory (R152). -/
theorem copyWord_go {base : Int} {i : Nat} {s : State} (h1 : 0 ≤ base + i) (h2 : base + i < 1000)
    (h3 : 0 ≤ s.fp.toInt + i) (h4 : s.fp.toInt + i < 1000) :
    copyWord base i s = .go () (stackWrite s (s.fp.toInt + i).toNat (stackRead s (base + i).toNat)) := by
  rw [copyWord, stackIdx_go h1 h2, Flow.bind_go, stackIdx_go h3 h4, Flow.bind_go]

/-- A source outside the stack memory faults before the destination is looked at (R152). -/
theorem copyWord_trap_of_source {base : Int} {i : Nat} {s : State} (h : base + i < 0 ∨ 1000 ≤ base + i) :
    copyWord base i s = .trap .stackIndexOutOfBounds (wrap (base + i)) s := by
  rw [copyWord, stackIdx_trap h, Flow.bind_trap]

/-- A destination outside the stack memory faults with nothing written (R152). -/
theorem copyWord_trap_of_destination {base : Int} {i : Nat} {s : State} (h1 : 0 ≤ base + i) (h2 : base + i < 1000)
    (h : s.fp.toInt + i < 0 ∨ 1000 ≤ s.fp.toInt + i) :
    copyWord base i s = .trap .stackIndexOutOfBounds (wrap (s.fp.toInt + i)) s := by
  rw [copyWord, stackIdx_go h1 h2, Flow.bind_go, stackIdx_trap h, Flow.bind_trap]

/-- With `i` of the `n` words copied, the next copy is that of word `i`: the order is ascending (R152). -/
theorem copyWords_of_lt {base : Int} {n i : Nat} (h : i < n) (s : State) :
    copyWords base n (n - i) s = (copyWord base i s).bind fun _ t => copyWords base n (n - (i + 1)) t := by
  obtain ⟨left, rfl⟩ := Nat.exists_eq_add_of_lt h
  rw [show i + left + 1 - i = left + 1 by omega, show i + left + 1 - (i + 1) = left by omega, copyWords,
    initCopyIndex_eq, show i + left + 1 - (left + 1) = i by omega]

/-- The word that the next copy reads: one that is still as before, or, where the source has run into the destination,
the word copied a period earlier (R152). -/
theorem stackRead_source_of_copied {base : Int} {k : Nat} {s t : State} (hb : 0 ≤ base) (h : Copied base k s t) :
    stackRead t (base + k).toNat =
      if base < s.fp.toInt then stackRead s (base + k % (s.fp.toInt - base)).toNat
      else stackRead s (base + k).toNat := by
  obtain ⟨hcopied, hkept⟩ := h (base + k).toNat
  rw [Int.toNat_of_nonneg (by omega)] at hcopied hkept
  split
  next hlt =>
    rcases Int.lt_or_le (base + k) s.fp.toInt with hbelow | hinside
    · rw [hkept (by omega), Int.emod_eq_of_lt (by omega) (by omega)]
    · rw [hcopied ⟨hinside, by omega⟩, if_pos hlt, show base + k - s.fp.toInt = k - (s.fp.toInt - base) by omega,
        Int.sub_emod_right]
  next hge => exact hkept (by omega)

/-- The next copy extends what has been copied by one word (R152). -/
theorem copied_succ {base : Int} {k : Nat} {s t : State} (hb : 0 ≤ base) (hf : 0 ≤ s.fp.toInt) (h : Copied base k s t) :
    Copied base (k + 1) s (stackWrite t (s.fp.toInt + k).toNat (stackRead t (base + k).toNat)) := by
  intro j
  by_cases hj : (j : Int) = s.fp.toInt + k
  · have hjk : j = (s.fp.toInt + k).toNat := by omega
    refine ⟨fun _ => ?_, fun hout => absurd ⟨by omega, by push_cast; omega⟩ hout⟩
    rw [hj, show s.fp.toInt + k - s.fp.toInt = k by omega, hjk, stackRead_stackWrite_same]
    exact stackRead_source_of_copied hb h
  · obtain ⟨hcopied, hkept⟩ := h j
    rw [stackRead_stackWrite_other _ _ (by omega)]
    push_cast
    exact ⟨fun hin => hcopied (by omega), fun hout => hkept (by omega)⟩

/-- As far as source and destination stay inside the stack memory, INIT's copy runs on, and has changed nothing but the
stack (R152). -/
theorem copyWords_run {base : Int} {n : Nat} {s : State} (hb : 0 ≤ base) (hbn : base + n ≤ 1000) (hf : 0 ≤ s.fp.toInt)
    {k : Nat} (hk : k ≤ n) (hfk : s.fp.toInt + k ≤ 1000) :
    ∃ m, copyWords base n n s = copyWords base n (n - k) { s with stack := m } ∧
      Copied base k s { s with stack := m } := by
  induction k with
  | zero => exact ⟨s.stack, rfl, fun j => ⟨fun hj => absurd hj (by simp), fun _ => rfl⟩⟩
  | succ k ih =>
    push_cast at hfk
    obtain ⟨m, hrun, hcopied⟩ := ih (by omega) (by omega)
    refine ⟨m.insert (s.fp.toInt + k).toNat (stackRead { s with stack := m } (base + k).toNat), ?_,
      copied_succ hb hf hcopied⟩
    rw [hrun, copyWords_of_lt (by omega),
      copyWord_go (by omega) (by omega) (by dsimp only; omega) (by dsimp only; omega)]
    rfl

/-- Settles O49: the copy runs through all the words, and the new `sp` is in range. -/
theorem initCopiesTheArgumentsAndJumps : Obligations.InitCopiesTheArgumentsAndJumps := by
  refine ⟨rfl, fun s h1 h2 hn hle hf hfn => ?_⟩
  have hsp := toInt_sub_two h1
  obtain ⟨m, hrun, hcopied⟩ := copyWords_run (base := s.sp.toInt - 1 - (top s).toInt) (n := (top s).toInt.toNat)
    (s := { s with sp := s.sp - 2 }) (by omega) (by omega) hf (Nat.le_refl _) (by dsimp only; omega)
  have hbody : body .init s = _ := initBody_of_two h1
  rw [hrun, Nat.sub_self, copyWords, Flow.bind_go, setSp_go (by dsimp only; omega) (by dsimp only; omega), Flow.bind_go,
    setIp_eq] at hbody
  refine ⟨_, exec_of_body_go hbody, hcopied, ?_, rfl, rfl, rfl⟩
  dsimp only
  rw [hsp, toInt_wrap] <;> omega

/-- Settles O50: with a count that is not positive no word is copied, and the new `sp` is checked. -/
theorem initWithoutArgumentsIsAnIndirectJump : Obligations.InitWithoutArgumentsIsAnIndirectJump := by
  intro s h1 h2 hn
  have hsp := toInt_sub_two h1
  have hbody : body .init s = _ := initBody_of_two h1
  rw [Int.toNat_of_nonpos hn, copyWords, Flow.bind_go] at hbody
  simp only [hsp] at hbody
  refine ⟨fun h => ?_, fun h => ?_⟩
  · rw [setSp_go (by omega) h, Flow.bind_go] at hbody
    exact exec_of_body_go hbody
  · rw [setSp_trap (.inr h), Flow.bind_trap] at hbody
    exact faults_of_body_trap hbody

/-- INIT with a count whose copy traps after `k` words (R152). -/
theorem faults_of_copyWord_trap {s t : State} {c : Cause} {info : Word} {k : Nat} {m : Memory} (h1 : 1 ≤ s.sp.toInt)
    (hk : (k : Int) < (top s).toInt) (hc : c ≠ .ipOutOfBounds)
    (hrun : copyWords (s.sp.toInt - 1 - (top s).toInt) (top s).toInt.toNat (top s).toInt.toNat
        { s with sp := s.sp - 2 } =
      copyWords (s.sp.toInt - 1 - (top s).toInt) (top s).toInt.toNat ((top s).toInt.toNat - k)
        { s with sp := s.sp - 2, stack := m })
    (htrap : copyWord (s.sp.toInt - 1 - (top s).toInt) k { s with sp := s.sp - 2, stack := m } = .trap c info t) :
    Faults .init s c info t := by
  refine faults_of_body_trap (show initBody s = _ from ?_) (hc := hc)
  rw [initBody_of_two h1, hrun, copyWords_of_lt (by omega), htrap, Flow.bind_trap, Flow.bind_trap]

/-- Settles O51: the pops, then the source's index, then the destination's, at the first word or after the words that
fit. -/
theorem initFaultsWhereAnIndexLeavesTheStack : Obligations.InitFaultsWhereAnIndexLeavesTheStack := by
  refine fun s h2 => ⟨fun h => ?_, fun h => ?_, fun h1 hn => ⟨fun hsrc => ?_, fun hsrc hdst => ?_, ?_⟩⟩
  · exact faults_of_body_trap (show initBody s = _ by rw [initBody, pop_trap h, Flow.bind_trap])
  · refine faults_of_body_trap (show initBody s = _ from ?_)
    rw [initBody, pop_go (by omega), Flow.bind_go, sub_one_of_toInt_zero h, pop_trap_of_sp_eq rfl, Flow.bind_trap]
  · have htrap := copyWord_trap_of_source (base := s.sp.toInt - 1 - (top s).toInt) (i := 0)
      (s := { s with sp := s.sp - 2 }) (by omega)
    rw [Nat.cast_zero, add_zero] at htrap
    exact faults_of_copyWord_trap h1 (by omega) (by decide) rfl htrap
  · have htrap := copyWord_trap_of_destination (base := s.sp.toInt - 1 - (top s).toInt) (i := 0)
      (s := { s with sp := s.sp - 2 }) (by omega) (by omega) (by dsimp only; omega)
    dsimp only at htrap
    rw [Nat.cast_zero, add_zero, wrap_toInt] at htrap
    exact faults_of_copyWord_trap h1 (by omega) (by decide) rfl htrap
  · intro hsrc hf hf2 hend
    obtain ⟨m, hrun, hcopied⟩ := copyWords_run (base := s.sp.toInt - 1 - (top s).toInt) (n := (top s).toInt.toNat)
      (s := { s with sp := s.sp - 2 }) (k := (1000 - s.fp.toInt).toNat) (by omega) (by omega) hf (by omega)
      (by dsimp only; omega)
    have hlast : s.fp.toInt + (1000 - s.fp.toInt).toNat = 1000 := by omega
    have htrap := copyWord_trap_of_destination (base := s.sp.toInt - 1 - (top s).toInt)
      (i := (1000 - s.fp.toInt).toNat) (s := { s with sp := s.sp - 2, stack := m }) (by omega) (by omega)
      (by dsimp only; omega)
    dsimp only at htrap
    rw [hlast] at htrap
    exact ⟨_, faults_of_copyWord_trap h1 (by omega) (by decide) hrun htrap, hcopied, rfl, rfl, rfl, rfl⟩

end Sys2Proof.CallProofs
end

section
/-!
SUPPORT. Which slots of the stack memory an instruction can change (spec/10_state.md R25): none, one, CALL's three, or
INIT's destination range.
-/

namespace Sys2Proof.StackFrameProofs

open Sys2Proof Sys2Proof.Machine Sys2Proof.Claims Sys2Proof.InstructionProofs Sys2Proof.FrameProofs
  Sys2Proof.CallProofs

/-! ### From the pseudocode to the instruction -/

/-- A fault or a stop leaves the stack memory that the pseudocode left. -/
theorem stackRead_of_exec {i : Instr} {s t : State} (h : exec i s = .next t) (j : Nat) :
    stackRead t j = stackRead (body i s).state j := by
  rw [exec_sameButStop h]
  rfl

theorem stackRead_of_faults {i : Instr} {s t u : State} {c : Cause} {info : Word} (hf : Faults i s c info t)
    (h : exec i s = .next u) (j : Nat) : stackRead u j = stackRead t j := by
  rw [hf] at h
  cases h
  rfl

/-! ### No slot -/

theorem pop_stack (s : State) : (pop s).state.stack = s.stack := by
  rcases pop_cases s with ⟨-, h⟩ | ⟨-, h⟩ <;> rw [h] <;> rfl

theorem setSp_stack (z : Int) (s : State) : (setSp z s).state.stack = s.stack := by
  rcases setSp_cases z s with ⟨-, h⟩ | ⟨-, h⟩ <;> rw [h] <;> rfl

/-- The sequence of two statements that leave the stack memory leaves it. -/
theorem bind_stack {α β : Type} {s : State} {r : Flow α} {k : α → State → Flow β} (hr : r.state.stack = s.stack)
    (hk : ∀ a t, (k a t).state.stack = t.stack) : (r.bind k).state.stack = s.stack :=
  Flow.bind_keeps (R := fun s t => t.stack = s.stack) (fun _ _ _ h1 h2 => h2.trans h1) hr hk

theorem popBranch_stack (taken : Word → Bool) (addr : Word) (s : State) :
    (popBranch taken addr s).state.stack = s.stack :=
  bind_stack (pop_stack s) fun _ _ => by split <;> rfl

/-- The pseudocode of the forms that store no slot leaves the stack memory. -/
theorem body_stack {i : Instr} (h : storesNoSlot i = true) (s : State) : (body i s).state.stack = s.stack := by
  cases i with
  | br addr => rfl
  | brt addr => exact popBranch_stack _ addr s
  | brf addr => exact popBranch_stack _ addr s
  | gstore off => rcases body_gstore_state off s with hst | hst | ⟨-, -, -, hst⟩ <;> rw [hst]
  | print => rcases body_print s with ⟨-, hst⟩ | ⟨-, hst⟩ <;> rw [hst] <;> rfl
  | pop => exact bind_stack (pop_stack s) fun _ _ => rfl
  | halt => rfl
  | _ => cases h

/-- Settles O26: no statement of these forms stores a slot, and BR and HALT do not move `sp`. -/
theorem formsThatStoreNoSlotKeepTheStack : Obligations.FormsThatStoreNoSlotKeepTheStack := by
  intro i s t hform h
  refine ⟨fun j => ?_, fun a hi => ?_⟩
  · rw [stackRead_of_exec h]
    exact stackRead_congr (body_stack hform s) (by rw [body_sameButRun i s]) j
  · rw [exec_sameButStop h]
    rcases hi with rfl | rfl <;> rfl

/-! ### One slot -/

theorem push_stackRead_other {v : Word} {s : State} {j : Nat} (hj : j ≠ (s.sp.toInt + 1).toNat) :
    stackRead (push v s).state j = stackRead s j := by
  rcases push_cases v s with ⟨-, h⟩ | ⟨-, h⟩ <;> rw [h]
  · exact stackRead_insert_other s s.stack v hj
  · rfl

theorem binary_stackRead_other {f : Word → Word → Word} {s : State} {j : Nat} (hj : j ≠ (s.sp.toInt - 1).toNat) :
    stackRead (binary f s).state j = stackRead s j := by
  rcases pop_cases s with ⟨h0, h⟩ | ⟨-, h⟩ <;> rw [binary, h]
  · rw [Flow.bind_go]
    have hsp1 : (s.sp - 1).toInt = s.sp.toInt - 1 := toInt_sub_one (by omega)
    rcases pop_cases { s with sp := s.sp - 1 } with ⟨h1, h⟩ | ⟨-, h⟩ <;> rw [h]
    · dsimp only at h1
      have hsp2 : (s.sp - 1 - 1).toInt = s.sp.toInt - 2 := by rw [toInt_sub_one] <;> omega
      exact push_stackRead_other (by dsimp only; omega)
    · rfl
  · rfl

theorem body_load_stackRead_other {off : Word} {s : State} {j : Nat} (hj : j ≠ (s.sp.toInt + 1).toNat) :
    stackRead (body (.load off) s).state j = stackRead s j := by
  rw [body_load, frameSlot]
  rcases stackIdx_cases (frameIndex off s) s with ⟨-, h⟩ | ⟨-, h⟩ <;> rw [h]
  · exact push_stackRead_other hj
  · rfl

theorem body_gload_stackRead_other {off : Word} {s : State} {j : Nat} (hj : j ≠ (s.sp.toInt + 1).toNat) :
    stackRead (body (.gload off) s).state j = stackRead s j := by
  rw [body_gload, globalSlot]
  rcases globalIdx_cases off s with ⟨-, h⟩ | ⟨-, h⟩ <;> rw [h]
  · exact push_stackRead_other hj
  · rfl

theorem body_store_stackRead_other {off : Word} {s : State} {j : Nat} (hj : j ≠ (frameIndex off s).toNat) :
    stackRead (body (.store off) s).state j = stackRead s j := by
  rcases pop_cases s with ⟨-, h⟩ | ⟨-, h⟩ <;> rw [body_store, h]
  · rw [Flow.bind_go, frameSlot]
    rcases stackIdx_cases (frameIndex off { s with sp := s.sp - 1 }) { s with sp := s.sp - 1 } with
      ⟨-, h⟩ | ⟨-, h⟩ <;> rw [h]
    · exact stackRead_insert_other s s.stack _ hj
    · rfl
  · rfl

/-- RET stores one slot at most, where its last push puts the value (R151). -/
theorem ret_stackRead_other {s t : State} (h : exec .ret s = .next t) {j : Nat}
    (hj : j ≠ (s.fp.toInt - 3 - (stackRead s (s.fp.toInt - 2).toNat).toInt + 1).toNat) :
    stackRead t j = stackRead s j := by
  obtain ⟨hempty, hearly⟩ := retFaultsWithoutAWholeLinkage s
  rcases Int.lt_or_le s.sp.toInt 0 with hneg | h0
  · exact stackRead_of_faults (hempty hneg) h j
  obtain ⟨hrange, hfirst, hsecond, hthird⟩ := hearly h0
  by_cases hout : s.fp.toInt < -1 ∨ 1000 ≤ s.fp.toInt
  · exact stackRead_of_faults (hrange hout) h j
  rcases Int.lt_or_le s.fp.toInt 2 with hlow | hlink
  · obtain hfp | hfp | hfp : s.fp.toInt = -1 ∨ s.fp.toInt = 0 ∨ s.fp.toInt = 1 := by omega
    · exact stackRead_of_faults (hfirst hfp) h j
    · exact stackRead_of_faults (hsecond hfp) h j
    · exact stackRead_of_faults (hthird hfp) h j
  obtain ⟨hgo, hspout, hfull⟩ := retRestoresTheCaller.2 s _ _ h0 hlink (by omega) rfl rfl
  by_cases hd : s.fp.toInt - 3 - (stackRead s (s.fp.toInt - 2).toNat).toInt < -1 ∨
      1000 ≤ s.fp.toInt - 3 - (stackRead s (s.fp.toInt - 2).toNat).toInt
  · exact stackRead_of_faults (hspout hd) h j
  by_cases hd999 : s.fp.toInt - 3 - (stackRead s (s.fp.toInt - 2).toNat).toInt = 999
  · exact stackRead_of_faults (hfull hd999) h j
  rw [hgo (by omega) (by omega)] at h
  cases h
  exact stackRead_insert_other s s.stack _ hj

/-- Settles O27: each of these instructions has one store, at its end, whose slot is the one named. -/
theorem singleStoresTouchOneSlot : Obligations.SingleStoresTouchOneSlot := by
  intro i s t a ha h j hj
  have hbody := stackRead_of_exec h j
  cases i <;> cases ha
  case iadd => exact hbody.trans (binary_stackRead_other hj)
  case isub => exact hbody.trans (binary_stackRead_other hj)
  case imul => exact hbody.trans (binary_stackRead_other hj)
  case ilt => exact hbody.trans (binary_stackRead_other hj)
  case ieq => exact hbody.trans (binary_stackRead_other hj)
  case iconst => exact hbody.trans (push_stackRead_other hj)
  case load => exact hbody.trans (body_load_stackRead_other hj)
  case store => exact hbody.trans (body_store_stackRead_other hj)
  case gload => exact hbody.trans (body_gload_stackRead_other hj)
  case ret => exact ret_stackRead_other h hj

/-! ### CALL's slots -/

/-- Settles O28: with three, two, one or no free slot, the stores of CALL are at `sp + 1`, `sp + 2` and `sp + 3`. -/
theorem callTouchesThreeSlots : Obligations.CallTouchesThreeSlots := by
  intro addr nargs s t hlo h j hj
  obtain ⟨hgo, htwo, hone, hnone⟩ := (callPushesTheLinkageAndJumps addr nargs s).2 hlo
  rcases Int.lt_or_le s.sp.toInt 997 with hroom | hfull
  · rw [hgo (by omega)] at h
    cases h
    have h1 := stackRead_insert_other s s.stack (i := (s.sp.toInt + 1).toNat) (k := j) nargs (by omega)
    have h2 := stackRead_insert_other s (s.stack.insert (s.sp.toInt + 1).toNat nargs) (i := (s.sp.toInt + 2).toNat)
      (k := j) s.fp (by omega)
    exact (stackRead_insert_other s _ (i := (s.sp.toInt + 3).toNat) s.ip (by omega)).trans (h2.trans h1)
  · obtain hsp | hsp | hsp : s.sp.toInt = 997 ∨ s.sp.toInt = 998 ∨ 999 ≤ s.sp.toInt := by omega
    · have h1 := stackRead_insert_other s s.stack (i := 998) (k := j) nargs (by omega)
      have h2 := stackRead_insert_other s (s.stack.insert 998 nargs) (i := 999) (k := j) s.fp (by omega)
      exact (stackRead_of_faults (htwo hsp) h j).trans (h2.trans h1)
    · have h1 := stackRead_insert_other s s.stack (i := 999) (k := j) nargs (by omega)
      exact (stackRead_of_faults (hone hsp) h j).trans h1
    · exact stackRead_of_faults (hnone hsp) h j

/-! ### INIT's slots -/

/-- One copied word changes its destination at most (R152). -/
theorem copyWord_cases (base : Int) (i : Nat) (s : State) :
    (∃ c info, copyWord base i s = .trap c info s) ∨
    (0 ≤ s.fp.toInt + i ∧ ∃ v, copyWord base i s = .go () (stackWrite s (s.fp.toInt + i).toNat v)) := by
  rcases stackIdx_cases (base + i) s with ⟨-, h⟩ | ⟨-, h⟩ <;> rw [copyWord, h]
  · rw [Flow.bind_go]
    rcases stackIdx_cases (s.fp.toInt + i) s with ⟨hin, h⟩ | ⟨-, h⟩ <;> rw [h]
    · exact .inr ⟨hin.1, _, rfl⟩
    · exact .inl ⟨_, _, rfl⟩
  · exact .inl ⟨_, _, rfl⟩

/-- The copies that are left change slots of the destination range at most (R152). -/
theorem copyWords_stackRead_other {base : Int} {n left : Nat} {s : State} {j : Nat} (hle : left ≤ n)
    (hj : ¬(s.fp.toInt ≤ j ∧ j < s.fp.toInt + n)) :
    stackRead (copyWords base n left s).state j = stackRead s j := by
  induction left generalizing s with
  | zero => rfl
  | succ left ih =>
    rw [copyWords, initCopyIndex_eq]
    rcases copyWord_cases base (n - (left + 1)) s with ⟨c, info, h⟩ | ⟨hin, v, h⟩ <;> rw [h]
    · rfl
    · rw [Flow.bind_go, ih (s := stackWrite s _ v) (by omega) hj, stackRead_stackWrite_other s v (by omega)]

/-- Settles O29: nothing but the copy stores a slot, and the pops before it fix its count as the top word. -/
theorem initTouchesOnlyTheArgumentSlots : Obligations.InitTouchesOnlyTheArgumentSlots := by
  intro s t h j hj
  refine (stackRead_of_exec h j).trans ?_
  change stackRead (initBody s).state j = stackRead s j
  rcases Int.lt_or_le s.sp.toInt 1 with hfew | htwo
  · rcases pop_cases s with ⟨h0, hpop⟩ | ⟨-, hpop⟩ <;> rw [initBody, hpop]
    · have hsp : (s.sp - 1).toInt = s.sp.toInt - 1 := toInt_sub_one (by omega)
      rw [Flow.bind_go, pop_trap (by dsimp only; omega)]
      rfl
    · rfl
  · have hcopy := copyWords_stackRead_other (base := s.sp.toInt - 1 - (top s).toInt) (n := (top s).toInt.toNat)
      (s := { s with sp := s.sp - 2 }) (j := j) (Nat.le_refl _) (by dsimp only; omega)
    rw [initBody_of_two htwo]
    exact Flow.bind_keeps (R := fun s t => stackRead t j = stackRead s j) (s := s)
      (fun _ _ _ h1 h2 => h2.trans h1) hcopy fun _ t => stackRead_congr (bind_stack (setSp_stack _ t) fun _ _ => rfl)
        (by rw [bind_frame (setSp_frame _ t) fun _ t => setIp_frame _ t]) j

end Sys2Proof.StackFrameProofs
end
